-- ==== Sys2Proof/Word.lean ====
section
/-! DEFINITION. The word types of XVI-V. XLEN = 32 (spec 00_scope.md R3); register numbers and psrf tags have
five bits (10_state.md R10, R16). -/

namespace Sys2Proof

/-- A 32-bit value: a general register, `pc`, an address, a psrf value, a corf entry (R3, R16, R18). -/
abbrev Word := BitVec 32

/-- One byte of memory (R30). -/
abbrev Byte := BitVec 8

/-- A five-bit field: the number of a general register, of a psrf entry or of a corf entry, or a psrf tag,
which is the number of a general register (R10, R17, R19). -/
abbrev Reg := BitVec 5

end Sys2Proof
end

