-- ==== Sys2Proof/Config.lean ====
section
/-! DEFINITION. The model's parameters, spec 00_scope.md R4. The OPEN ones are the fields of `Config` (plain data,
carried in `State`; notes/assumptions/1.md); the one that is a function of register values, PSRF_BRANCH_COND, is a
constant without a body, so that nothing can be proved of its value (notes/assumptions/13.md). -/

namespace Sys2Proof

/-- A run of `size` byte addresses from `base` up. Finite unions of regions are exactly the sets of 32-bit
addresses, so MEM and CODE (R38, R42) lose nothing by this form. -/
structure Region where
  base : Nat
  size : Nat
deriving DecidableEq, Repr

/-- PSRF_BRANCH_TAGSEL (R4, R164): which register field of `psrf.branch` is the source's `xd`. -/
inductive TagSel where
  | rs1
  | rs2
deriving DecidableEq, Repr

/-- The OPEN parameters of 00_scope.md R4 that are plain data. -/
structure Config where
  /-- PSRF_TAG_INIT(i), for i below NPS; its length is NPS (R16, R17). -/
  psrfTagInit : List Reg
  /-- NCO, the number of corf entries (R18). -/
  nco : Nat
  /-- AGU_SELECT(var), for each var below NVAR = 3: the psrf indices summed (R160). -/
  aguSelect : Vector (List Nat) 3
  /-- PSRF_BRANCH_TAGSEL (R164). -/
  tagSel : TagSel
  /-- MEM, the byte addresses that are memory (R38). -/
  memMap : List Region
  /-- CODE, the byte addresses that hold program text (R42). -/
  codeMap : List Region
  /-- RESET_PC (R230). -/
  resetPc : Word
  /-- HALT_PC (R232); `none` is a run that no address ends. -/
  haltPc : Option Word
deriving DecidableEq, Repr

/-- NPS, the number of psrf entries (R16). -/
def Config.nps (c : Config) : Nat := c.psrfTagInit.length

/-- CODE is a subset of MEM (R4, R42): every byte address of a CODE region lies in a MEM region. -/
def Config.CodeInMem (c : Config) : Prop :=
  ∀ a : Word, (∃ r ∈ c.codeMap, r.base ≤ a.toNat ∧ a.toNat < r.base + r.size) →
    ∃ r ∈ c.memMap, r.base ≤ a.toNat ∧ a.toNat < r.base + r.size

/-- The constraints the spec puts on a configuration: `NCO >= NPS` (R18), every index of AGU_SELECT below NPS (R160),
and CODE a subset of MEM (R4, R42). They are checked once, not at run time (notes/assumptions/15.md). -/
def Config.Valid (c : Config) : Prop :=
  c.nps ≤ c.nco ∧ (∀ l ∈ c.aguSelect.toList, ∀ k ∈ l, k < c.nps) ∧ c.CodeInMem

/-- PSRF_BRANCH_COND(a, b), the "if branch" test of `psrf.branch`: OPEN, a total Boolean function of the two register
values, no default (R164, D23; notes/assumptions/13.md). A FREE VALUE: it has no body. -/
opaque Config.psrfBranchCond : Word → Word → Bool

/-- The reference column of R4 where it has an entry (NPS, NCO, AGU_SELECT, PSRF_BRANCH_TAGSEL), and the model's own
choices, DESIGN CHOICE, where it has none: notes/assumptions/5.md to 9.md, 11.md, 12.md, 14.md. -/
def Config.reference : Config where
  psrfTagInit := List.replicate 32 31#5
  nco := 32
  aguSelect := #v[[0, 1, 2], [6, 7, 8], [12, 13, 14]]
  tagSel := .rs1
  memMap := [⟨0, 4294967296⟩]
  codeMap := []
  resetPc := 0x00000100#32
  haltPc := none

end Sys2Proof
end

