-- ==== Sys2Proof/Machine/State.lean ====
section
/-! DEFINITION. The state of XVI-V (spec 10_state.md R23: `x[1..31]`, `pc`, the psrf values and tags, the corf entries
and the bytes of memory), the configuration it runs under (00_scope.md R4), the faults (60_exceptions.md R201) and the
state after reset (R24, 70_reset_and_hazards.md R230). -/

namespace Sys2Proof.Machine

/-- One entry of the partial-sum register file (R16). -/
structure PsrfEntry where
  val : Word
  tag : Reg
deriving DecidableEq, Repr

/-- The bytes of `M` (R22, R30), as (address, byte) pairs; `Memory.wf` is the canonical form, and an address that is
not listed reads `unlistedByte`. -/
abbrev Memory := List Host.Cell

/-- What a byte nothing has written reads as: DESIGN CHOICE, unsafe for claims about runs from `State.reset`; the
spec leaves the launch contents of `M` open (R24; notes/assumptions/10.md). -/
def unlistedByte : Byte := 0#8

structure State where
  /-- `x[1]` to `x[31]`, register `n` at index `n - 1`; `x[0]` is not stored (R11, R23). -/
  regs : Vector Word 31
  /-- The address of the instruction being executed (R13). -/
  pc : Word
  /-- `ps[0]` to `ps[NPS-1]`; its length is NPS (R16). -/
  psrf : List PsrfEntry
  /-- `co[0]` to `co[NCO-1]`; its length is NCO (R18). -/
  corf : List Word
  /-- The bytes of `M` (R22). -/
  mem : Memory
  /-- The arguments of the model (00_scope.md R4), which no step changes: the model's own field
  (notes/assumptions/1.md). -/
  cfg : Config
deriving DecidableEq, Repr

/-- The faults of 60_exceptions.md R201, each with the information R201 has it record and the `pc` of the faulting
instruction (R200). All are terminal and all are safe: where the chip might go on, the model stops (D13). -/
inductive Fault where
  /-- the fetch, when `pc[1:0] != 0` (R35); safe -/
  | misalignedFetch (pc : Word)
  /-- the fetch, when a byte of `pc .. pc+3` is not in MEM (R38); safe -/
  | fetchAccess (pc : Word)
  /-- the decoder, on a word of no row of R62 (R63); safe -/
  | illegalInstruction (inst : Word) (pc : Word)
  /-- `psrf.lw` and `psrf.sw` with `var >= NVAR` (R61); `corf.lui`, `corf.addi` with an entry number of NCO or more and
  `ppsrf.addi` with one of NPS or more (R19); safe -/
  | reservedOperand (v : Nat) (pc : Word)
  /-- every load and store, `psrf.lw` and `psrf.sw`, at an address that is no multiple of the size (R32); safe -/
  | misalignedAccess (addr : Word) (n : Nat) (pc : Word)
  /-- every load and store, `psrf.lw` and `psrf.sw`, when a byte of the access is not in MEM (R38); safe -/
  | accessFault (addr : Word) (n : Nat) (pc : Word)
  /-- `sb`, `sh`, `sw` and `psrf.sw`, when a byte of the store is in CODE (R42); safe -/
  | storeToCode (addr : Word) (pc : Word)
deriving DecidableEq, Repr

/-- The refusals: a step that is not taken and is no fault of the spec. -/
inductive Refusal where
  /-- `exec`, on an instruction the model gives no meaning yet (none is left); safe -/
  | notModelled (mnemonic : String)
  /-- the fetch, when `pc = HALT_PC`: the run is over and no step is taken (R14, R232); it is no fault, since the state
  is the final state of a run; safe (notes/assumptions/7.md) -/
  | halted
deriving DecidableEq, Repr

/-- The state after reset under a configuration (R24, R230): `pc` is RESET_PC and the tags are PSRF_TAG_INIT; the
registers, psrf values and corf entries, which R24 leaves unspecified, are 0 (DESIGN CHOICE, unsafe:
notes/assumptions/2.md to 4.md), and no byte of memory is listed (notes/assumptions/10.md). -/
def State.resetWith (c : Config) : State where
  regs := Vector.replicate 31 0#32
  pc := c.resetPc
  psrf := c.psrfTagInit.map fun t => ⟨0#32, t⟩
  corf := List.replicate c.nco 0#32
  mem := []
  cfg := c

/-- The state after reset, under the reference configuration. -/
def State.reset : State := State.resetWith Config.reference

end Sys2Proof.Machine
end

