-- ==== Sys2Proof/Machine/Ops.lean ====
section
/-! DEFINITION. The named operations over registers, the special register files, memory and `pc` that every meaning is
written with, and the one way to raise a fault (spec 10_state.md, 20_memory.md, 60_exceptions.md R200). -/

namespace Sys2Proof.Machine

/-! ### General registers (R10, R11) and `pc` (R14, R15) -/

/-- Read `x[r]`; `x[0]` reads 0 (R11). -/
def State.reg (s : State) (r : Reg) : Word :=
  if r = 0#5 then 0#32 else s.regs[r.toNat - 1]'(by have := r.isLt; omega)

/-- `x[r] <- v`; a write to `x[0]` is discarded (R11). -/
def State.setReg (s : State) (r : Reg) (v : Word) : State :=
  if r = 0#5 then s
  else { s with regs := s.regs.set (r.toNat - 1) v (by have := r.isLt; omega) }

/-- `pc <- pc + 4` modulo 2^32, the end of every instruction that does not assign `pc` (R14, R15). -/
def State.advance (s : State) : State := { s with pc := s.pc + 4#32 }

/-- `pc <- t`. -/
def State.jump (s : State) (t : Word) : State := { s with pc := t }

/-! ### The psrf and the corf (R16 to R19) -/

/-- NPS, the source's `len(psrf_mem)` (R16). -/
def State.nps (s : State) : Nat := s.psrf.length

/-- NCO (R18). -/
def State.nco (s : State) : Nat := s.corf.length

/-- `ps[i].val`. An index of NPS or more is ruled out by the callers' checks and by `Config.Valid`
(notes/assumptions/15.md). -/
def State.psVal (s : State) (i : Nat) : Word := (s.psrf[i]?.map PsrfEntry.val).getD 0#32

/-- `co[i]`; as `psVal` for an index of NCO or more. -/
def State.co (s : State) (i : Nat) : Word := s.corf[i]?.getD 0#32

/-- `ps[i].val <- v`, the tag unchanged (R17). -/
def State.setPsVal (s : State) (i : Nat) (v : Word) : State :=
  { s with psrf := s.psrf.modify i fun e => { e with val := v } }

/-- `co[i] <- v`. -/
def State.setCo (s : State) (i : Nat) (v : Word) : State := { s with corf := s.corf.set i v }

/-- The `for i in 0 .. NPS-1` of `psrf.addi` and `psrf.branch` (R163, R164): every entry whose tag is `t` gets the
value `f i val`, and keeps its tag. -/
def State.updateTagged (s : State) (t : Reg) (f : Nat → Word → Word) : State :=
  { s with psrf := s.psrf.mapIdx fun i e => if e.tag = t then { e with val := f i e.val } else e }

/-! ### Memory as a list of cells -/

/-- The byte at an address. -/
def Memory.byteAt : Memory → Nat → Byte
  | [], _ => unlistedByte
  | (k, b) :: m, a => if k = a then b else Memory.byteAt m a

/-- Take an address out of the list. -/
def Memory.without (m : Memory) (a : Nat) : Memory := m.filter fun c => c.1 != a

/-- Put a cell before the first cell of a higher address. -/
def Memory.place : Memory → Nat → Byte → Memory
  | [], a, v => [(a, v)]
  | (k, b) :: m, a, v => if a < k then (a, v) :: (k, b) :: m else (k, b) :: Memory.place m a v

/-- `M[a] <- v`, keeping the canonical form. -/
def Memory.setByte (m : Memory) (a : Nat) (v : Byte) : Memory :=
  if v = unlistedByte then m.without a else (m.without a).place a v

/-- The canonical form: addresses strictly rising and below 2^32, no cell equal to what an unlisted address reads. -/
def Memory.wf (m : Memory) : Bool :=
  decide (m.Pairwise fun c d => c.1 < d.1) && m.all fun c => c.1 < 4294967296 && c.2 != unlistedByte

/-- `{ M[a+n-1], ..., M[a+1], M[a] }`, little-endian, addresses modulo 2^32 (R31, R33, R43). -/
def Memory.readBytes (m : Memory) (a : Word) : (n : Nat) → BitVec (8 * n)
  | 0 => 0#0
  | n + 1 => Memory.readBytes m (a + 1#32) n ++ m.byteAt a.toNat

/-- Byte `k` of a value, `v[8k+7 : 8k]` (R34). -/
def valueByte {w : Nat} (v : BitVec w) (k : Nat) : Byte := v.extractLsb' (8 * k) 8

/-- `for k in 0 .. n-1: M[a+k] <- v[8k+7 : 8k]` (R34, R43). -/
def Memory.writeBytes {w : Nat} (m : Memory) (a : Word) (v : BitVec w) : Nat → Memory
  | 0 => m
  | n + 1 => (Memory.writeBytes m a v n).setByte (a + BitVec.ofNat 32 n).toNat (valueByte v n)

/-! ### The memory map and the access primitives (R33, R34, R38, R42) -/

/-- The address lies in one of the regions. -/
def inRegions (rs : List Region) (a : Word) : Bool :=
  rs.any fun r => decide (r.base ≤ a.toNat) && decide (a.toNat < r.base + r.size)

/-- The byte is in MEM (R38). -/
def State.inMem (s : State) (a : Word) : Bool := inRegions s.cfg.memMap a

/-- The byte is in CODE (R42). -/
def State.inCode (s : State) (a : Word) : Bool := inRegions s.cfg.codeMap a

/-- The byte at an address of the machine. -/
def State.byte (s : State) (a : Word) : Byte := s.mem.byteAt a.toNat

/-- The addresses `a, a+1, ..., a+n-1` of an access, each modulo 2^32 (R43). -/
def accessed (a : Word) (n : Nat) : List Word := (List.range n).map fun k => a + BitVec.ofNat 32 k

/-- The checks that loads and stores share: misalignment first, then MEM (R33, R34, R202). -/
def State.accessCheck (s : State) (addr : Word) (n : Nat) : Option Fault :=
  if addr.toNat % n ≠ 0 then some (.misalignedAccess addr n s.pc)
  else if (accessed addr n).all s.inMem then none
  else some (.accessFault addr n s.pc)

/-- `MemRead(addr, n)` (R33). -/
def State.memRead (s : State) (addr : Word) (n : Nat) : Except Fault (BitVec (8 * n)) :=
  match s.accessCheck addr n with
  | some f => .error f
  | none => .ok (s.mem.readBytes addr n)

/-- `MemWrite(addr, n, v)` (R34): the checks come before any byte is written. -/
def State.memWrite {w : Nat} (s : State) (addr : Word) (n : Nat) (v : BitVec w) : Except Fault State :=
  match s.accessCheck addr n with
  | some f => .error f
  | none =>
    if (accessed addr n).any s.inCode then .error (.storeToCode addr s.pc)
    else .ok { s with mem := s.mem.writeBytes addr v n }

/-! ### Faults (R200) and the ends the instruction rules share -/

/-- `raise F`: the step ends in the fault, which records the `pc` of the instruction; nothing is written (R200). There
is no trap entry and no return from one (R203). -/
def State.raise (s : State) (f : Word → Fault) : Host.Outcome State Fault Refusal := .fault (f s.pc)

/-- `x[rd] <- v`; `pc <- pc + 4`. -/
def State.finishReg (s : State) (rd : Reg) (v : Word) : Host.Outcome State Fault Refusal :=
  .next (s.setReg rd v).advance

/-- `x[rd] <- ext (MemRead(addr, n))`; `pc <- pc + 4`. A faulting load writes no register (R140). -/
def State.load (s : State) (rd : Reg) (addr : Word) (n : Nat) (ext : BitVec (8 * n) → Word) :
    Host.Outcome State Fault Refusal :=
  match s.memRead addr n with
  | .ok v => s.finishReg rd (ext v)
  | .error f => .fault f

/-- `MemWrite(addr, n, v)`; `pc <- pc + 4`. A faulting store writes no byte (R140). -/
def State.store {w : Nat} (s : State) (addr : Word) (n : Nat) (v : BitVec w) : Host.Outcome State Fault Refusal :=
  match s.memWrite addr n v with
  | .ok t => .next t.advance
  | .error f => .fault f

end Sys2Proof.Machine
end

