-- ==== Sys2Proof/Machine/Operands.lean ====
section
/-! DEFINITION. Operand forms: the immediates (spec 30_encoding.md R57 to R61, R68), shift amounts (40_arithmetic.md
R101), the effective address (42_memory_instructions.md R140) and the address-generation sum (43_xviv_special.md
R160). -/

namespace Sys2Proof.Machine

/-- A 12-bit immediate, sign-extended: `immI` (R57) and `immS` (R58). -/
def imm12 (imm : BitVec 12) : Word := imm.signExtend 32

/-- `immB`, sign-extended (R59). -/
def immB (imm : BitVec 13) : Word := imm.signExtend 32

/-- `immU = {imm, 12'b0}` (R60). -/
def immU (imm : BitVec 20) : Word := imm ++ 0#12

/-- The shift amount of a register shift, `x[rs2][4:0]` (R101). -/
def State.shiftAmount (s : State) (rs2 : Reg) : Nat := ((s.reg rs2).extractLsb' 0 5).toNat

/-- The effective address of a load or store, `x[rs1] + imm` modulo 2^32 (R140). -/
def State.ea (s : State) (rs1 : Reg) (imm : BitVec 12) : Word := s.reg rs1 + imm12 imm

/-- NVAR, the number of address variables (R4, R61). -/
def nvar : Nat := 3

/-- AGU_SELECT(var) (R160). -/
def State.aguSelect (s : State) (var : BitVec 12) : List Nat := (s.cfg.aguSelect[var.toNat]?).getD []

/-- `agu(var)`: the sum of `ps[k].val` for k in AGU_SELECT(var), modulo 2^32 (R160). -/
def State.agu (s : State) (var : BitVec 12) : Word := ((s.aguSelect var).map s.psVal).sum

/-- The address of `psrf.lw` and `psrf.sw`, `agu(var) + x[rs1]` (R161, R162). -/
def State.psrfAddr (s : State) (rs1 : Reg) (var : BitVec 12) : Word := s.agu var + s.reg rs1

/-- The register number `t` whose entries `psrf.branch` clears, chosen by PSRF_BRANCH_TAGSEL (R164). -/
def State.branchTag (s : State) (rs1 rs2 : Reg) : Reg :=
  match s.cfg.tagSel with
  | .rs1 => rs1
  | .rs2 => rs2

end Sys2Proof.Machine
end

