-- ==== Sys2Proof/Machine/Flags.lean ====
section
/-! DEFINITION. XVI-V has no status flags and no condition codes (spec 10_state.md R20): a comparison delivers 0 or 1 to
a general register (40_arithmetic.md R105, R106; 41_arithmetic_immediate.md R123, R124). -/

namespace Sys2Proof.Machine

/-- `c ? 1 : 0`, in all 32 bits. -/
def boolWord (c : Bool) : Word := if c then 1#32 else 0#32

/-- `(a <s b) ? 1 : 0`, two's complement (R105, R123). -/
def lessSigned (a b : Word) : Word := boolWord (a.slt b)

/-- `(a <u b) ? 1 : 0` (R106, R124). -/
def lessUnsigned (a b : Word) : Word := boolWord (a.ult b)

end Sys2Proof.Machine
end

