-- ==== Sys2Proof/Machine/Arith.lean ====
section
/-! DEFINITION. Arithmetic Operations (spec 40_arithmetic.md): register-register, wrapping modulo 2^32 (R100), shifts by
`x[rs2][4:0]` (R101). Each ends with `pc <- pc + 4` and raises no fault. -/

namespace Sys2Proof.Machine

/-- ADD: `x[rd] <- x[rs1] + x[rs2]` (R102). -/
def execAdd (rd rs1 rs2 : Reg) (s : State) : Host.Outcome State Fault Refusal :=
  s.finishReg rd (s.reg rs1 + s.reg rs2)

/-- SUB: `x[rd] <- x[rs1] - x[rs2]` (R103). -/
def execSub (rd rs1 rs2 : Reg) (s : State) : Host.Outcome State Fault Refusal :=
  s.finishReg rd (s.reg rs1 - s.reg rs2)

/-- SLL: `x[rd] <- x[rs1] << x[rs2][4:0]`, zeros shifted in (R104). -/
def execSll (rd rs1 rs2 : Reg) (s : State) : Host.Outcome State Fault Refusal :=
  s.finishReg rd (s.reg rs1 <<< s.shiftAmount rs2)

/-- SLT: `x[rd] <- (x[rs1] <s x[rs2]) ? 1 : 0` (R105). -/
def execSlt (rd rs1 rs2 : Reg) (s : State) : Host.Outcome State Fault Refusal :=
  s.finishReg rd (lessSigned (s.reg rs1) (s.reg rs2))

/-- SLTU: `x[rd] <- (x[rs1] <u x[rs2]) ? 1 : 0` (R106). -/
def execSltu (rd rs1 rs2 : Reg) (s : State) : Host.Outcome State Fault Refusal :=
  s.finishReg rd (lessUnsigned (s.reg rs1) (s.reg rs2))

/-- XOR: `x[rd] <- x[rs1] ^ x[rs2]` (R107). -/
def execXor (rd rs1 rs2 : Reg) (s : State) : Host.Outcome State Fault Refusal :=
  s.finishReg rd (s.reg rs1 ^^^ s.reg rs2)

/-- SRL: `x[rd] <- x[rs1] >>u x[rs2][4:0]`, zeros shifted in (R108). -/
def execSrl (rd rs1 rs2 : Reg) (s : State) : Host.Outcome State Fault Refusal :=
  s.finishReg rd (s.reg rs1 >>> s.shiftAmount rs2)

/-- SRA: `x[rd] <- x[rs1] >>s x[rs2][4:0]`, copies of bit 31 shifted in (R109). -/
def execSra (rd rs1 rs2 : Reg) (s : State) : Host.Outcome State Fault Refusal :=
  s.finishReg rd ((s.reg rs1).sshiftRight (s.shiftAmount rs2))

/-- OR: `x[rd] <- x[rs1] | x[rs2]`, bit by bit (R110). -/
def execOr (rd rs1 rs2 : Reg) (s : State) : Host.Outcome State Fault Refusal :=
  s.finishReg rd (s.reg rs1 ||| s.reg rs2)

/-- AND: `x[rd] <- x[rs1] & x[rs2]`, bit by bit (R111). -/
def execAnd (rd rs1 rs2 : Reg) (s : State) : Host.Outcome State Fault Refusal :=
  s.finishReg rd (s.reg rs1 &&& s.reg rs2)

end Sys2Proof.Machine
end

