-- ==== Sys2Proof/Machine/ArithImm.lean ====
section
/-! DEFINITION. Arithmetic Immediate Operations (spec 41_arithmetic_immediate.md). The 12-bit immediate is sign-extended,
for the logical operations and SLTIU too (R120). Each ends with `pc <- pc + 4` and raises no fault. -/

namespace Sys2Proof.Machine

/-- ADDI: `x[rd] <- x[rs1] + immI` (R121). -/
def execAddi (rd rs1 : Reg) (imm : BitVec 12) (s : State) : Host.Outcome State Fault Refusal :=
  s.finishReg rd (s.reg rs1 + imm12 imm)

/-- SLLI: `x[rd] <- x[rs1] << shamt` (R122). -/
def execSlli (rd rs1 : Reg) (shamt : BitVec 5) (s : State) : Host.Outcome State Fault Refusal :=
  s.finishReg rd (s.reg rs1 <<< shamt.toNat)

/-- SLTI: `x[rd] <- (x[rs1] <s immI) ? 1 : 0` (R123). -/
def execSlti (rd rs1 : Reg) (imm : BitVec 12) (s : State) : Host.Outcome State Fault Refusal :=
  s.finishReg rd (lessSigned (s.reg rs1) (imm12 imm))

/-- SLTIU: `x[rd] <- (x[rs1] <u immI) ? 1 : 0`, the immediate sign-extended first (R124). -/
def execSltiu (rd rs1 : Reg) (imm : BitVec 12) (s : State) : Host.Outcome State Fault Refusal :=
  s.finishReg rd (lessUnsigned (s.reg rs1) (imm12 imm))

/-- XORI: `x[rd] <- x[rs1] ^ immI` (R125). -/
def execXori (rd rs1 : Reg) (imm : BitVec 12) (s : State) : Host.Outcome State Fault Refusal :=
  s.finishReg rd (s.reg rs1 ^^^ imm12 imm)

/-- SRLI: `x[rd] <- x[rs1] >>u shamt` (R126). -/
def execSrli (rd rs1 : Reg) (shamt : BitVec 5) (s : State) : Host.Outcome State Fault Refusal :=
  s.finishReg rd (s.reg rs1 >>> shamt.toNat)

/-- SRAI: `x[rd] <- x[rs1] >>s shamt` (R127). -/
def execSrai (rd rs1 : Reg) (shamt : BitVec 5) (s : State) : Host.Outcome State Fault Refusal :=
  s.finishReg rd ((s.reg rs1).sshiftRight shamt.toNat)

/-- ORI: `x[rd] <- x[rs1] | immI` (R128). -/
def execOri (rd rs1 : Reg) (imm : BitVec 12) (s : State) : Host.Outcome State Fault Refusal :=
  s.finishReg rd (s.reg rs1 ||| imm12 imm)

/-- ANDI: `x[rd] <- x[rs1] & immI` (R129). -/
def execAndi (rd rs1 : Reg) (imm : BitVec 12) (s : State) : Host.Outcome State Fault Refusal :=
  s.finishReg rd (s.reg rs1 &&& imm12 imm)

/-- LUI: `x[rd] <- {imm, 12'b0}` (R130). -/
def execLui (rd : Reg) (imm : BitVec 20) (s : State) : Host.Outcome State Fault Refusal :=
  s.finishReg rd (immU imm)

/-- AUIPC: `x[rd] <- pc + {imm, 12'b0}`, `pc` the address of this instruction (R131). -/
def execAuipc (rd : Reg) (imm : BitVec 20) (s : State) : Host.Outcome State Fault Refusal :=
  s.finishReg rd (s.pc + immU imm)

end Sys2Proof.Machine
end

