-- ==== Sys2Proof/Machine/LoadStore.lean ====
section
/-! DEFINITION. Memory Instructions (spec 42_memory_instructions.md): loads and stores at `x[rs1] + imm` (R140), through
MemRead and MemWrite (20_memory.md R33, R34). Each ends with `pc <- pc + 4`, unless it faults. -/

namespace Sys2Proof.Machine

/-- LB: `x[rd] <- sext_32(MemRead(ea, 1))` (R141). -/
def execLb (rd rs1 : Reg) (imm : BitVec 12) (s : State) : Host.Outcome State Fault Refusal :=
  s.load rd (s.ea rs1 imm) 1 fun v => v.signExtend 32

/-- LH: `x[rd] <- sext_32(MemRead(ea, 2))` (R142). -/
def execLh (rd rs1 : Reg) (imm : BitVec 12) (s : State) : Host.Outcome State Fault Refusal :=
  s.load rd (s.ea rs1 imm) 2 fun v => v.signExtend 32

/-- LW: `x[rd] <- MemRead(ea, 4)` (R143). -/
def execLw (rd rs1 : Reg) (imm : BitVec 12) (s : State) : Host.Outcome State Fault Refusal :=
  s.load rd (s.ea rs1 imm) 4 fun v => v

/-- LBU: `x[rd] <- zext_32(MemRead(ea, 1))` (R144). -/
def execLbu (rd rs1 : Reg) (imm : BitVec 12) (s : State) : Host.Outcome State Fault Refusal :=
  s.load rd (s.ea rs1 imm) 1 fun v => v.zeroExtend 32

/-- LHU: `x[rd] <- zext_32(MemRead(ea, 2))` (R145). -/
def execLhu (rd rs1 : Reg) (imm : BitVec 12) (s : State) : Host.Outcome State Fault Refusal :=
  s.load rd (s.ea rs1 imm) 2 fun v => v.zeroExtend 32

/-- SB: `MemWrite(ea, 1, x[rs2][7:0])` (R146). -/
def execSb (rs2 rs1 : Reg) (imm : BitVec 12) (s : State) : Host.Outcome State Fault Refusal :=
  s.store (s.ea rs1 imm) 1 ((s.reg rs2).extractLsb' 0 8)

/-- SH: `MemWrite(ea, 2, x[rs2][15:0])` (R147). -/
def execSh (rs2 rs1 : Reg) (imm : BitVec 12) (s : State) : Host.Outcome State Fault Refusal :=
  s.store (s.ea rs1 imm) 2 ((s.reg rs2).extractLsb' 0 16)

/-- SW: `MemWrite(ea, 4, x[rs2])` (R148). -/
def execSw (rs2 rs1 : Reg) (imm : BitVec 12) (s : State) : Host.Outcome State Fault Refusal :=
  s.store (s.ea rs1 imm) 4 (s.reg rs2)

end Sys2Proof.Machine
end

