-- ==== Sys2Proof/Machine/Special.lean ====
section
/-! DEFINITION. The instructions designed for XVI-V (spec 43_xviv_special.md): address generation, loop stepping and the
loading of the psrf and the corf. -/

namespace Sys2Proof.Machine

/-- psrf.lw: `var >= NVAR` is a reserved operand; otherwise `x[rd] <- MemRead(agu(var) + x[rs1], 4)` and
`pc <- pc + 4` (R161). -/
def execPsrfLw (rd rs1 : Reg) (var : BitVec 12) (s : State) : Host.Outcome State Fault Refusal :=
  if nvar ≤ var.toNat then s.raise (.reservedOperand var.toNat)
  else s.load rd (s.psrfAddr rs1 var) 4 fun v => v

/-- psrf.sw: `var >= NVAR` is a reserved operand; otherwise `MemWrite(agu(var) + x[rs1], 4, x[rs2])` and
`pc <- pc + 4` (R162). -/
def execPsrfSw (rs2 rs1 : Reg) (var : BitVec 12) (s : State) : Host.Outcome State Fault Refusal :=
  if nvar ≤ var.toNat then s.raise (.reservedOperand var.toNat)
  else s.store (s.psrfAddr rs1 var) 4 (s.reg rs2)

/-- psrf.addi: `x[d] <- x[d] + immI`, and every entry tagged with the number `d` gets `co[i]` added once, whatever
`imm` is; `pc <- pc + 4` (R163). -/
def execPsrfAddi (d : Reg) (imm : BitVec 12) (s : State) : Host.Outcome State Fault Refusal :=
  .next ((s.setReg d (s.reg d + imm12 imm)).updateTagged d fun i v => v + s.co i).advance

/-- The two ends of psrf.branch (R164): taken, only `pc` changes; not taken, the values of the entries tagged `t` are
cleared, their tags kept, and `pc <- pc + 4`. -/
def State.branch (s : State) (taken : Bool) (t : Reg) (imm : BitVec 13) : State :=
  if taken then s.jump (s.pc + immB imm) else (s.updateTagged t fun _ _ => 0#32).advance

/-- psrf.branch: the test is the open parameter PSRF_BRANCH_COND, on the two register values (R164). -/
def execPsrfBranch (rs1 rs2 : Reg) (imm : BitVec 13) (s : State) : Host.Outcome State Fault Refusal :=
  .next (s.branch (Config.psrfBranchCond (s.reg rs1) (s.reg rs2)) (s.branchTag rs1 rs2) imm)

/-- corf.lui: `co[cd] <- {imm, 12'b0}`; `pc <- pc + 4`; an entry number of NCO or more is a reserved operand (R165). -/
def execCorfLui (cd : Reg) (imm : BitVec 20) (s : State) : Host.Outcome State Fault Refusal :=
  if s.nco ≤ cd.toNat then s.raise (.reservedOperand cd.toNat)
  else .next (s.setCo cd.toNat (immU imm)).advance

/-- corf.addi: `co[cd] <- co[cs] + immI`; `pc <- pc + 4`; an entry number of NCO or more is a reserved operand, the
source entry looked at first (R166; notes/assumptions/16.md). -/
def execCorfAddi (cd cs : Reg) (imm : BitVec 12) (s : State) : Host.Outcome State Fault Refusal :=
  if s.nco ≤ cs.toNat then s.raise (.reservedOperand cs.toNat)
  else if s.nco ≤ cd.toNat then s.raise (.reservedOperand cd.toNat)
  else .next (s.setCo cd.toNat (s.co cs.toNat + imm12 imm)).advance

/-- ppsrf.addi: `ps[pd].val <- ps[ps].val + immI`, the tag unchanged; `pc <- pc + 4`; an entry number of NPS or more is a
reserved operand, the source entry looked at first (R167; notes/assumptions/16.md). -/
def execPpsrfAddi (pd ps : Reg) (imm : BitVec 12) (s : State) : Host.Outcome State Fault Refusal :=
  if s.nps ≤ ps.toNat then s.raise (.reservedOperand ps.toNat)
  else if s.nps ≤ pd.toNat then s.raise (.reservedOperand pd.toNat)
  else .next (s.setPsVal pd.toNat (s.psVal ps.toNat + imm12 imm)).advance

end Sys2Proof.Machine
end

