-- ==== Sys2Proof/Syntax.lean ====
section
/-! DEFINITION. The 36 instructions of XVI-V (spec 00_scope.md R2), one constructor per row of
spec/opcode_table.json. Operands stand in the order of the assembler syntax (30_encoding.md R66); an immediate is the
bit field the encoding gives it, sign-extended only by its meaning. -/

namespace Sys2Proof

/-- An instruction of XVI-V. -/
inductive Instr where
  -- Arithmetic Operations (40_arithmetic.md), R-type R51
  | add (rd rs1 rs2 : Reg)
  | sub (rd rs1 rs2 : Reg)
  | sll (rd rs1 rs2 : Reg)
  | slt (rd rs1 rs2 : Reg)
  | sltu (rd rs1 rs2 : Reg)
  | xor (rd rs1 rs2 : Reg)
  | srl (rd rs1 rs2 : Reg)
  | sra (rd rs1 rs2 : Reg)
  | or (rd rs1 rs2 : Reg)
  | and (rd rs1 rs2 : Reg)
  -- Arithmetic Immediate Operations (41_arithmetic_immediate.md), I-type R52, I-shift R53, U-type R56
  | addi (rd rs1 : Reg) (imm : BitVec 12)
  | slli (rd rs1 : Reg) (shamt : BitVec 5)
  | slti (rd rs1 : Reg) (imm : BitVec 12)
  | sltiu (rd rs1 : Reg) (imm : BitVec 12)
  | xori (rd rs1 : Reg) (imm : BitVec 12)
  | srli (rd rs1 : Reg) (shamt : BitVec 5)
  | srai (rd rs1 : Reg) (shamt : BitVec 5)
  | ori (rd rs1 : Reg) (imm : BitVec 12)
  | andi (rd rs1 : Reg) (imm : BitVec 12)
  | lui (rd : Reg) (imm : BitVec 20)
  | auipc (rd : Reg) (imm : BitVec 20)
  -- Memory Instructions (42_memory_instructions.md), I-type R52, S-type R54
  | lb (rd rs1 : Reg) (imm : BitVec 12)
  | lh (rd rs1 : Reg) (imm : BitVec 12)
  | lw (rd rs1 : Reg) (imm : BitVec 12)
  | lbu (rd rs1 : Reg) (imm : BitVec 12)
  | lhu (rd rs1 : Reg) (imm : BitVec 12)
  | sb (rs2 rs1 : Reg) (imm : BitVec 12)
  | sh (rs2 rs1 : Reg) (imm : BitVec 12)
  | sw (rs2 rs1 : Reg) (imm : BitVec 12)
  -- Special instructions designed for XVI-V (43_xviv_special.md)
  | psrfLw (rd rs1 : Reg) (var : BitVec 12)
  | psrfSw (rs2 rs1 : Reg) (var : BitVec 12)
  /-- One register, which both register fields of the word name (R163). -/
  | psrfAddi (d : Reg) (imm : BitVec 12)
  /-- `imm` is the 13-bit byte offset, even in a well-formed instruction (R59). -/
  | psrfBranch (rs1 rs2 : Reg) (imm : BitVec 13)
  | corfLui (cd : Reg) (imm : BitVec 20)
  /-- `cd` is the destination entry, `cs` the source entry; the two may differ (R166). -/
  | corfAddi (cd cs : Reg) (imm : BitVec 12)
  /-- `pd` is the destination entry, `ps` the source entry; the two may differ (R167). -/
  | ppsrfAddi (pd ps : Reg) (imm : BitVec 12)
deriving DecidableEq, Repr

end Sys2Proof
end

