-- ==== Sys2Proof/WellFormed.lean ====
section
/-! DEFINITION. Which terms of `Instr` an encoding exists for. Field widths and the equal register fields of
`psrf.addi` are in the constructors' types; the one check left is that the byte offset of `psrf.branch` is even (spec
30_encoding.md R59: "Bit 0 is always 0"). A `var` of 3 or more is a reserved operand, not an ill-formed one: it is
encodable and faults when executed (R61, R65). -/

namespace Sys2Proof

/-- The instruction has an encoding. -/
def Instr.wellFormed : Instr → Bool
  | .psrfBranch _ _ imm => !imm.getLsbD 0
  | .add .. | .sub .. | .sll .. | .slt .. | .sltu .. | .xor .. | .srl .. | .sra .. | .or .. | .and .. => true
  | .addi .. | .slli .. | .slti .. | .sltiu .. | .xori .. | .srli .. | .srai .. | .ori .. | .andi .. => true
  | .lui .. | .auipc .. => true
  | .lb .. | .lh .. | .lw .. | .lbu .. | .lhu .. | .sb .. | .sh .. | .sw .. => true
  | .psrfLw .. | .psrfSw .. | .psrfAddi .. | .corfLui .. | .corfAddi .. | .ppsrfAddi .. => true

end Sys2Proof
end

