-- ==== Sys2Proof/Decode.lean ====
section
/-! DEFINITION. Decoding and encoding, spec 30_encoding.md: the formats R51 to R56, the immediates R57 to R61 and R68,
the opcode map R62 and the illegal space R63. A word is decoded by its opcode, then funct3, then funct7. -/

namespace Sys2Proof

/-- Why the decoder refuses a word. Each of them is the spec's one `IllegalInstruction` (R63); the name says which
line of R63 it falls under. -/
inductive Reject where
  /-- fewer than four bytes were given (R50); never met by the machine, which fetches four -/
  | truncated
  /-- the opcode is none of the twelve of R62 -/
  | unknownOpcode (opcode : BitVec 7)
  /-- the opcode has no instruction of this funct3 -/
  | unknownFunct3 (opcode : BitVec 7) (funct3 : BitVec 3)
  /-- the opcode and funct3 have no instruction of this funct7 (`inst[31:25]`) -/
  | unknownFunct7 (funct3 : BitVec 3) (funct7 : BitVec 7)
  /-- `psrf.addi` whose two register fields differ (R163, D22) -/
  | registersDiffer (rs1 rd : Reg)
deriving DecidableEq, Repr

/-! ### Fields of a word (R51 to R56) -/

/-- `inst[6:0]`. -/
def fOpcode (w : Word) : BitVec 7 := w.extractLsb' 0 7
/-- `inst[11:7]`. -/
def fRd (w : Word) : Reg := w.extractLsb' 7 5
/-- `inst[14:12]`. -/
def fFunct3 (w : Word) : BitVec 3 := w.extractLsb' 12 3
/-- `inst[19:15]`. -/
def fRs1 (w : Word) : Reg := w.extractLsb' 15 5
/-- `inst[24:20]`: rs2, or the shift amount of I-shift (R53, R68). -/
def fRs2 (w : Word) : Reg := w.extractLsb' 20 5
/-- `inst[31:25]`. -/
def fFunct7 (w : Word) : BitVec 7 := w.extractLsb' 25 7
/-- The I-type immediate field `inst[31:20]` (R52). -/
def fImmI (w : Word) : BitVec 12 := w.extractLsb' 20 12
/-- The S-type immediate `{inst[31:25], inst[11:7]}` (R54, R58). -/
def fImmS (w : Word) : BitVec 12 := fFunct7 w ++ fRd w
/-- The B-type immediate `{inst[31], inst[7], inst[30:25], inst[11:8], 0}` (R55, R59). -/
def fImmB (w : Word) : BitVec 13 :=
  w.extractLsb' 31 1 ++ w.extractLsb' 7 1 ++ w.extractLsb' 25 6 ++ w.extractLsb' 8 4 ++ 0#1
/-- The U-type immediate field `inst[31:12]` (R56). -/
def fImmU (w : Word) : BitVec 20 := w.extractLsb' 12 20

/-! ### The opcode map (R62), one function per opcode that has more than one row -/

/-- Opcode 0x03 (R141 to R145). -/
def decodeLoad (w : Word) : Except Reject Instr :=
  if fFunct3 w = 0#3 then .ok (.lb (fRd w) (fRs1 w) (fImmI w))
  else if fFunct3 w = 1#3 then .ok (.lh (fRd w) (fRs1 w) (fImmI w))
  else if fFunct3 w = 2#3 then .ok (.lw (fRd w) (fRs1 w) (fImmI w))
  else if fFunct3 w = 4#3 then .ok (.lbu (fRd w) (fRs1 w) (fImmI w))
  else if fFunct3 w = 5#3 then .ok (.lhu (fRd w) (fRs1 w) (fImmI w))
  else .error (.unknownFunct3 (fOpcode w) (fFunct3 w))

/-- Opcode 0x23 (R146 to R148). -/
def decodeStore (w : Word) : Except Reject Instr :=
  if fFunct3 w = 0#3 then .ok (.sb (fRs2 w) (fRs1 w) (fImmS w))
  else if fFunct3 w = 1#3 then .ok (.sh (fRs2 w) (fRs1 w) (fImmS w))
  else if fFunct3 w = 2#3 then .ok (.sw (fRs2 w) (fRs1 w) (fImmS w))
  else .error (.unknownFunct3 (fOpcode w) (fFunct3 w))

/-- Opcode 0x13 (R121 to R129); funct3 1 and 5 also need `inst[31:25]` (D6). -/
def decodeArithImm (w : Word) : Except Reject Instr :=
  if fFunct3 w = 0#3 then .ok (.addi (fRd w) (fRs1 w) (fImmI w))
  else if fFunct3 w = 1#3 then
    if fFunct7 w = 0x00#7 then .ok (.slli (fRd w) (fRs1 w) (fRs2 w))
    else .error (.unknownFunct7 (fFunct3 w) (fFunct7 w))
  else if fFunct3 w = 2#3 then .ok (.slti (fRd w) (fRs1 w) (fImmI w))
  else if fFunct3 w = 3#3 then .ok (.sltiu (fRd w) (fRs1 w) (fImmI w))
  else if fFunct3 w = 4#3 then .ok (.xori (fRd w) (fRs1 w) (fImmI w))
  else if fFunct3 w = 5#3 then
    if fFunct7 w = 0x00#7 then .ok (.srli (fRd w) (fRs1 w) (fRs2 w))
    else if fFunct7 w = 0x20#7 then .ok (.srai (fRd w) (fRs1 w) (fRs2 w))
    else .error (.unknownFunct7 (fFunct3 w) (fFunct7 w))
  else if fFunct3 w = 6#3 then .ok (.ori (fRd w) (fRs1 w) (fImmI w))
  else .ok (.andi (fRd w) (fRs1 w) (fImmI w))

/-- Opcode 0x33 (R102 to R111): funct7 0x00, or 0x20 for SUB and SRA. -/
def decodeArith (w : Word) : Except Reject Instr :=
  if fFunct7 w = 0x00#7 then
    if fFunct3 w = 0#3 then .ok (.add (fRd w) (fRs1 w) (fRs2 w))
    else if fFunct3 w = 1#3 then .ok (.sll (fRd w) (fRs1 w) (fRs2 w))
    else if fFunct3 w = 2#3 then .ok (.slt (fRd w) (fRs1 w) (fRs2 w))
    else if fFunct3 w = 3#3 then .ok (.sltu (fRd w) (fRs1 w) (fRs2 w))
    else if fFunct3 w = 4#3 then .ok (.xor (fRd w) (fRs1 w) (fRs2 w))
    else if fFunct3 w = 5#3 then .ok (.srl (fRd w) (fRs1 w) (fRs2 w))
    else if fFunct3 w = 6#3 then .ok (.or (fRd w) (fRs1 w) (fRs2 w))
    else .ok (.and (fRd w) (fRs1 w) (fRs2 w))
  else if fFunct7 w = 0x20#7 then
    if fFunct3 w = 0#3 then .ok (.sub (fRd w) (fRs1 w) (fRs2 w))
    else if fFunct3 w = 5#3 then .ok (.sra (fRd w) (fRs1 w) (fRs2 w))
    else .error (.unknownFunct7 (fFunct3 w) (fFunct7 w))
  else .error (.unknownFunct7 (fFunct3 w) (fFunct7 w))

/-- Opcode 0x14 (R166, R167). -/
def decodeFileAddi (w : Word) : Except Reject Instr :=
  if fFunct3 w = 0#3 then .ok (.corfAddi (fRd w) (fRs1 w) (fImmI w))
  else if fFunct3 w = 1#3 then .ok (.ppsrfAddi (fRd w) (fRs1 w) (fImmI w))
  else .error (.unknownFunct3 (fOpcode w) (fFunct3 w))

/-- Opcode 0x15 (R163): the two register fields must be equal (D22). -/
def decodePsrfAddi (w : Word) : Except Reject Instr :=
  if fFunct3 w = 0#3 then
    if fRs1 w = fRd w then .ok (.psrfAddi (fRd w) (fImmI w))
    else .error (.registersDiffer (fRs1 w) (fRd w))
  else .error (.unknownFunct3 (fOpcode w) (fFunct3 w))

/-- An opcode with one row, of one funct3 (0x04, 0x24, 0x64). -/
def decodeOneFunct3 (funct3 : BitVec 3) (i : Instr) (w : Word) : Except Reject Instr :=
  if fFunct3 w = funct3 then .ok i else .error (.unknownFunct3 (fOpcode w) (fFunct3 w))

/-- Decode a 32-bit word (R62); a word of no row is refused (R63). -/
def decodeWord (w : Word) : Except Reject Instr :=
  if fOpcode w = 0x03#7 then decodeLoad w
  else if fOpcode w = 0x04#7 then decodeOneFunct3 7#3 (.psrfLw (fRd w) (fRs1 w) (fImmI w)) w
  else if fOpcode w = 0x13#7 then decodeArithImm w
  else if fOpcode w = 0x14#7 then decodeFileAddi w
  else if fOpcode w = 0x15#7 then decodePsrfAddi w
  else if fOpcode w = 0x17#7 then .ok (.auipc (fRd w) (fImmU w))
  else if fOpcode w = 0x23#7 then decodeStore w
  else if fOpcode w = 0x24#7 then decodeOneFunct3 4#3 (.psrfSw (fRs2 w) (fRs1 w) (fImmS w)) w
  else if fOpcode w = 0x33#7 then decodeArith w
  else if fOpcode w = 0x37#7 then .ok (.lui (fRd w) (fImmU w))
  else if fOpcode w = 0x3B#7 then .ok (.corfLui (fRd w) (fImmU w))
  else if fOpcode w = 0x64#7 then decodeOneFunct3 0#3 (.psrfBranch (fRs1 w) (fRs2 w) (fImmB w)) w
  else .error (.unknownOpcode (fOpcode w))

/-- Decode from bytes, lowest address first, little-endian (R31, R50): an instruction is always four bytes, and the
rest of the list is handed back. -/
def decodeBytes : List Byte → Except Reject (Instr × List Byte)
  | b0 :: b1 :: b2 :: b3 :: rest =>
    match decodeWord (b3 ++ b2 ++ b1 ++ b0) with
    | .ok i => .ok (i, rest)
    | .error e => .error e
  | [] | [_] | [_, _] | [_, _, _] => .error .truncated

/-- The four bytes of a word as the hardware stores it, lowest address first: little-endian (R31). -/
def wordBytes (w : Word) : List Byte :=
  [w.extractLsb' 0 8, w.extractLsb' 8 8, w.extractLsb' 16 8, w.extractLsb' 24 8]

/-- The word of an instruction numbered as spec/opcode_table.json numbers it; the bits above `nbits` are 0. -/
def tableWord (nbits w : Nat) : Word := BitVec.ofNat 32 (w % 2 ^ nbits)

/-- What the decoder reads from an instruction numbered as spec/opcode_table.json numbers it. -/
def decodeTableWord (nbits w : Nat) : Option Instr :=
  match decodeBytes (wordBytes (tableWord nbits w)) with
  | .ok (i, _) => some i
  | .error _ => none

/-! ### The encoder, from the same formats -/

/-- R-type (R51), and I-shift (R53) with the shift amount in the rs2 field. -/
def formR (funct7 : BitVec 7) (rs2 rs1 : Reg) (funct3 : BitVec 3) (rd : Reg) (opcode : BitVec 7) : Word :=
  funct7 ++ rs2 ++ rs1 ++ funct3 ++ rd ++ opcode
/-- I-type (R52). -/
def formI (imm : BitVec 12) (rs1 : Reg) (funct3 : BitVec 3) (rd : Reg) (opcode : BitVec 7) : Word :=
  imm ++ rs1 ++ funct3 ++ rd ++ opcode
/-- S-type (R54). -/
def formS (imm : BitVec 12) (rs2 rs1 : Reg) (funct3 : BitVec 3) (opcode : BitVec 7) : Word :=
  imm.extractLsb' 5 7 ++ rs2 ++ rs1 ++ funct3 ++ imm.extractLsb' 0 5 ++ opcode
/-- B-type (R55). -/
def formB (imm : BitVec 13) (rs2 rs1 : Reg) (funct3 : BitVec 3) (opcode : BitVec 7) : Word :=
  imm.extractLsb' 12 1 ++ imm.extractLsb' 5 6 ++ rs2 ++ rs1 ++ funct3 ++ imm.extractLsb' 1 4 ++
    imm.extractLsb' 11 1 ++ opcode
/-- U-type (R56). -/
def formU (imm : BitVec 20) (rd : Reg) (opcode : BitVec 7) : Word :=
  imm ++ rd ++ opcode

/-- The word of a well-formed instruction (R62). -/
def encode : Instr → Word
  | .add rd rs1 rs2 => formR 0x00#7 rs2 rs1 0#3 rd 0x33#7
  | .sub rd rs1 rs2 => formR 0x20#7 rs2 rs1 0#3 rd 0x33#7
  | .sll rd rs1 rs2 => formR 0x00#7 rs2 rs1 1#3 rd 0x33#7
  | .slt rd rs1 rs2 => formR 0x00#7 rs2 rs1 2#3 rd 0x33#7
  | .sltu rd rs1 rs2 => formR 0x00#7 rs2 rs1 3#3 rd 0x33#7
  | .xor rd rs1 rs2 => formR 0x00#7 rs2 rs1 4#3 rd 0x33#7
  | .srl rd rs1 rs2 => formR 0x00#7 rs2 rs1 5#3 rd 0x33#7
  | .sra rd rs1 rs2 => formR 0x20#7 rs2 rs1 5#3 rd 0x33#7
  | .or rd rs1 rs2 => formR 0x00#7 rs2 rs1 6#3 rd 0x33#7
  | .and rd rs1 rs2 => formR 0x00#7 rs2 rs1 7#3 rd 0x33#7
  | .addi rd rs1 imm => formI imm rs1 0#3 rd 0x13#7
  | .slli rd rs1 shamt => formR 0x00#7 shamt rs1 1#3 rd 0x13#7
  | .slti rd rs1 imm => formI imm rs1 2#3 rd 0x13#7
  | .sltiu rd rs1 imm => formI imm rs1 3#3 rd 0x13#7
  | .xori rd rs1 imm => formI imm rs1 4#3 rd 0x13#7
  | .srli rd rs1 shamt => formR 0x00#7 shamt rs1 5#3 rd 0x13#7
  | .srai rd rs1 shamt => formR 0x20#7 shamt rs1 5#3 rd 0x13#7
  | .ori rd rs1 imm => formI imm rs1 6#3 rd 0x13#7
  | .andi rd rs1 imm => formI imm rs1 7#3 rd 0x13#7
  | .lui rd imm => formU imm rd 0x37#7
  | .auipc rd imm => formU imm rd 0x17#7
  | .lb rd rs1 imm => formI imm rs1 0#3 rd 0x03#7
  | .lh rd rs1 imm => formI imm rs1 1#3 rd 0x03#7
  | .lw rd rs1 imm => formI imm rs1 2#3 rd 0x03#7
  | .lbu rd rs1 imm => formI imm rs1 4#3 rd 0x03#7
  | .lhu rd rs1 imm => formI imm rs1 5#3 rd 0x03#7
  | .sb rs2 rs1 imm => formS imm rs2 rs1 0#3 0x23#7
  | .sh rs2 rs1 imm => formS imm rs2 rs1 1#3 0x23#7
  | .sw rs2 rs1 imm => formS imm rs2 rs1 2#3 0x23#7
  | .psrfLw rd rs1 var => formI var rs1 7#3 rd 0x04#7
  | .psrfSw rs2 rs1 var => formS var rs2 rs1 4#3 0x24#7
  | .psrfAddi d imm => formI imm d 0#3 d 0x15#7
  | .psrfBranch rs1 rs2 imm => formB imm rs2 rs1 0#3 0x64#7
  | .corfLui cd imm => formU imm cd 0x3B#7
  | .corfAddi cd cs imm => formI imm cs 0#3 cd 0x14#7
  | .ppsrfAddi pd ps imm => formI imm ps 1#3 pd 0x14#7

end Sys2Proof
end

