-- ==== Sys2Proof/Machine/Fetch.lean ====
section
/-! DEFINITION. Steps 1 to 5 of the machine's step, spec 10_state.md R14: the end of a run, the fetch (20_memory.md R35)
and the decoding (30_encoding.md R62, R63). -/

namespace Sys2Proof.Machine

/-- The word at `pc`, little-endian (R31, R35). -/
def State.fetchWord (s : State) : Word := s.mem.readBytes s.pc 4

/-- The instruction at `pc`, or why there is none: the run is over (R232), the fetch faults (R35, R38), or the word is
illegal (R63), in the order of R14 and R202. -/
def State.fetch (s : State) : Host.Outcome Instr Fault Refusal :=
  if s.cfg.haltPc = some s.pc then .refused .halted
  else if s.pc.toNat % 4 ≠ 0 then .fault (.misalignedFetch s.pc)
  else if (accessed s.pc 4).all s.inMem then
    match decodeWord s.fetchWord with
    | .ok i => .next i
    | .error _ => .fault (.illegalInstruction s.fetchWord s.pc)
  else .fault (.fetchAccess s.pc)

/-- `s` with a word placed where the next fetch reads it, and what that fetch needs of `pc` and of the configuration:
`pc` a multiple of 4, its four bytes in MEM, and no HALT_PC there (notes/assumptions/21.md). -/
def State.placeWord (s : State) (w : Word) : State :=
  let a := s.pc &&& 0xFFFFFFFC#32
  { s with
    pc := a
    mem := s.mem.writeBytes a w 4
    cfg := { s.cfg with
      memMap := if (accessed a 4).all s.inMem then s.cfg.memMap else ⟨a.toNat, 4⟩ :: s.cfg.memMap
      haltPc := if s.cfg.haltPc = some a then none else s.cfg.haltPc } }

end Sys2Proof.Machine
end

