-- ==== Sys2Proof/Machine/Step.lean ====
section
/-! DEFINITION. One step of the machine, spec 10_state.md R14: fetch, decode, execute. -/

namespace Sys2Proof.Machine

/-- One step (R14). The advance of `pc` (its line 7) is part of each instruction's meaning, as in files 40 to 43. -/
def step (s : State) : Host.Outcome State Fault Refusal :=
  match s.fetch with
  | .next i => exec i s
  | .fault f => .fault f
  | .refused r => .refused r

/-- `s` with the instruction of an opcode-table word stored where `step` fetches next. -/
def State.withFetchWord (s : State) (nbits w : Nat) : State := s.placeWord (tableWord nbits w)

end Sys2Proof.Machine
end

