-- ==== Sys2Proof/Safety.lean ====
section
/-! DEFINITION. The terms claims are made in: the opcode map of spec 30_encoding.md R62 as a table of rows, what an
instruction may write (10_state.md R12), which memory access it makes and which fault stops it (60_exceptions.md R201,
R202), what an instruction leaves unchanged, and the invariant of the machine. None of it calls a meaning. -/

namespace Sys2Proof

/-- A row of R62: the opcode, and the funct3 and funct7 it fixes. -/
structure OpRow where
  opcode : BitVec 7
  funct3 : Option (BitVec 3)
  funct7 : Option (BitVec 7)
deriving DecidableEq, Repr

/-- The word has the row's fixed fields. -/
def OpRow.covers (r : OpRow) (w : Word) : Bool :=
  fOpcode w == r.opcode && r.funct3.all (fun f => fFunct3 w == f) && r.funct7.all (fun f => fFunct7 w == f)

/-- R62: Arithmetic Operations (opcode 0x33). -/
def arithRows : List OpRow :=
  [⟨0x33#7, some 0#3, some 0x00#7⟩, ⟨0x33#7, some 0#3, some 0x20#7⟩, ⟨0x33#7, some 1#3, some 0x00#7⟩,
   ⟨0x33#7, some 2#3, some 0x00#7⟩, ⟨0x33#7, some 3#3, some 0x00#7⟩, ⟨0x33#7, some 4#3, some 0x00#7⟩,
   ⟨0x33#7, some 5#3, some 0x00#7⟩, ⟨0x33#7, some 5#3, some 0x20#7⟩, ⟨0x33#7, some 6#3, some 0x00#7⟩,
   ⟨0x33#7, some 7#3, some 0x00#7⟩]

/-- R62: Arithmetic Immediate Operations (opcodes 0x13, 0x37, 0x17). -/
def arithImmRows : List OpRow :=
  [⟨0x13#7, some 0#3, none⟩, ⟨0x13#7, some 1#3, some 0x00#7⟩, ⟨0x13#7, some 2#3, none⟩, ⟨0x13#7, some 3#3, none⟩,
   ⟨0x13#7, some 4#3, none⟩, ⟨0x13#7, some 5#3, some 0x00#7⟩, ⟨0x13#7, some 5#3, some 0x20#7⟩,
   ⟨0x13#7, some 6#3, none⟩, ⟨0x13#7, some 7#3, none⟩, ⟨0x37#7, none, none⟩, ⟨0x17#7, none, none⟩]

/-- R62: Memory Instructions (opcodes 0x03, 0x23). -/
def memoryRows : List OpRow :=
  [⟨0x03#7, some 0#3, none⟩, ⟨0x03#7, some 1#3, none⟩, ⟨0x03#7, some 2#3, none⟩, ⟨0x03#7, some 4#3, none⟩,
   ⟨0x03#7, some 5#3, none⟩, ⟨0x23#7, some 0#3, none⟩, ⟨0x23#7, some 1#3, none⟩, ⟨0x23#7, some 2#3, none⟩]

/-- R62: special instructions (opcodes 0x04, 0x24, 0x15, 0x64, 0x3B, 0x14). -/
def specialRows : List OpRow :=
  [⟨0x04#7, some 7#3, none⟩, ⟨0x24#7, some 4#3, none⟩, ⟨0x15#7, some 0#3, none⟩, ⟨0x64#7, some 0#3, none⟩,
   ⟨0x3B#7, none, none⟩, ⟨0x14#7, some 0#3, none⟩, ⟨0x14#7, some 1#3, none⟩]

/-- The 36 rows of R62. -/
def opRows : List OpRow := arithRows ++ arithImmRows ++ memoryRows ++ specialRows

/-- The word is an instruction: a row of R62 covers it, and under opcode 0x15 its two register fields are equal
(R163). -/
def legalWord (w : Word) : Bool :=
  opRows.any (fun r => r.covers w) && (fOpcode w != 0x15#7 || fRs1 w == fRd w)

/-- The general register an instruction writes (R12). -/
def destOf : Instr → Option Reg
  | .add rd _ _ | .sub rd _ _ | .sll rd _ _ | .slt rd _ _ | .sltu rd _ _ | .xor rd _ _ | .srl rd _ _ | .sra rd _ _
  | .or rd _ _ | .and rd _ _ => some rd
  | .addi rd _ _ | .slli rd _ _ | .slti rd _ _ | .sltiu rd _ _ | .xori rd _ _ | .srli rd _ _ | .srai rd _ _
  | .ori rd _ _ | .andi rd _ _ | .lui rd _ | .auipc rd _ => some rd
  | .lb rd _ _ | .lh rd _ _ | .lw rd _ _ | .lbu rd _ _ | .lhu rd _ _ | .psrfLw rd _ _ | .psrfAddi rd _ => some rd
  | .sb .. | .sh .. | .sw .. | .psrfSw .. | .psrfBranch .. | .corfLui .. | .corfAddi .. | .ppsrfAddi .. => none

/-- The instruction may write psrf values: `psrf.addi`, `psrf.branch`, `ppsrf.addi` (R19). -/
def writesPsrf : Instr → Bool
  | .psrfAddi .. | .psrfBranch .. | .ppsrfAddi .. => true
  | .add .. | .sub .. | .sll .. | .slt .. | .sltu .. | .xor .. | .srl .. | .sra .. | .or .. | .and .. | .addi ..
  | .slli .. | .slti .. | .sltiu .. | .xori .. | .srli .. | .srai .. | .ori .. | .andi .. | .lui .. | .auipc ..
  | .lb .. | .lh .. | .lw .. | .lbu .. | .lhu .. | .sb .. | .sh .. | .sw .. | .psrfLw .. | .psrfSw ..
  | .corfLui .. | .corfAddi .. => false

/-- The instruction writes a corf entry: `corf.lui`, `corf.addi` (R18). -/
def writesCorf : Instr → Bool
  | .corfLui .. | .corfAddi .. => true
  | .add .. | .sub .. | .sll .. | .slt .. | .sltu .. | .xor .. | .srl .. | .sra .. | .or .. | .and .. | .addi ..
  | .slli .. | .slti .. | .sltiu .. | .xori .. | .srli .. | .srai .. | .ori .. | .andi .. | .lui .. | .auipc ..
  | .lb .. | .lh .. | .lw .. | .lbu .. | .lhu .. | .sb .. | .sh .. | .sw .. | .psrfLw .. | .psrfSw ..
  | .psrfAddi .. | .psrfBranch .. | .ppsrfAddi .. => false

/-- The instruction is a psrf.addi on the counter `d` (R163). -/
def stepsCounter (d : Reg) : Instr → Bool
  | .psrfAddi d' _ => d' == d
  | .add .. | .sub .. | .sll .. | .slt .. | .sltu .. | .xor .. | .srl .. | .sra .. | .or .. | .and .. | .addi ..
  | .slli .. | .slti .. | .sltiu .. | .xori .. | .srli .. | .srai .. | .ori .. | .andi .. | .lui .. | .auipc ..
  | .lb .. | .lh .. | .lw .. | .lbu .. | .lhu .. | .sb .. | .sh .. | .sw .. | .psrfLw .. | .psrfSw ..
  | .psrfBranch .. | .corfLui .. | .corfAddi .. | .ppsrfAddi .. => false

end Sys2Proof

namespace Sys2Proof.Machine

/-- A data access: its address, its width in bytes, and whether it is a store (R33, R34, R36). -/
structure Access where
  addr : Word
  size : Nat
  isStore : Bool
deriving DecidableEq, Repr

/-- The data access an instruction makes in a state (R36, R140, R161, R162). -/
def accessOf (s : State) : Instr → Option Access
  | .lb _ rs1 imm | .lbu _ rs1 imm => some ⟨s.ea rs1 imm, 1, false⟩
  | .lh _ rs1 imm | .lhu _ rs1 imm => some ⟨s.ea rs1 imm, 2, false⟩
  | .lw _ rs1 imm => some ⟨s.ea rs1 imm, 4, false⟩
  | .sb _ rs1 imm => some ⟨s.ea rs1 imm, 1, true⟩
  | .sh _ rs1 imm => some ⟨s.ea rs1 imm, 2, true⟩
  | .sw _ rs1 imm => some ⟨s.ea rs1 imm, 4, true⟩
  | .psrfLw _ rs1 var => some ⟨s.psrfAddr rs1 var, 4, false⟩
  | .psrfSw _ rs1 var => some ⟨s.psrfAddr rs1 var, 4, true⟩
  | .add .. | .sub .. | .sll .. | .slt .. | .sltu .. | .xor .. | .srl .. | .sra .. | .or .. | .and .. | .addi ..
  | .slli .. | .slti .. | .sltiu .. | .xori .. | .srli .. | .srai .. | .ori .. | .andi .. | .lui .. | .auipc ..
  | .psrfAddi .. | .psrfBranch .. | .corfLui .. | .corfAddi .. | .ppsrfAddi .. => none

/-- The reserved operand of an instruction in a state: a `var` of NVAR = 3 or more (R61), an entry number of NCO or NPS
or more (R19). Of two bad entry numbers the source entry's is named (notes/assumptions/16.md). -/
def reservedOf (s : State) : Instr → Option Nat
  | .psrfLw _ _ var | .psrfSw _ _ var => if 3 ≤ var.toNat then some var.toNat else none
  | .corfLui cd _ => if s.corf.length ≤ cd.toNat then some cd.toNat else none
  | .corfAddi cd cs _ =>
    if s.corf.length ≤ cs.toNat then some cs.toNat
    else if s.corf.length ≤ cd.toNat then some cd.toNat else none
  | .ppsrfAddi pd ps _ =>
    if s.psrf.length ≤ ps.toNat then some ps.toNat
    else if s.psrf.length ≤ pd.toNat then some pd.toNat else none
  | .add .. | .sub .. | .sll .. | .slt .. | .sltu .. | .xor .. | .srl .. | .sra .. | .or .. | .and .. | .addi ..
  | .slli .. | .slti .. | .sltiu .. | .xori .. | .srli .. | .srai .. | .ori .. | .andi .. | .lui .. | .auipc ..
  | .lb .. | .lh .. | .lw .. | .lbu .. | .lhu .. | .sb .. | .sh .. | .sw .. | .psrfAddi .. | .psrfBranch .. => none

/-- The fault of a data access in a state, the first that applies of `MisalignedAccess`, `AccessFault`, `StoreToCode`
(R33, R34, R202). -/
def accessFaultOf (s : State) (a : Access) : Option Fault :=
  if a.addr.toNat % a.size ≠ 0 then some (.misalignedAccess a.addr a.size s.pc)
  else if (accessed a.addr a.size).any (fun b => !s.inMem b) then some (.accessFault a.addr a.size s.pc)
  else if a.isStore && (accessed a.addr a.size).any s.inCode then some (.storeToCode a.addr s.pc)
  else none

/-- The fault that executing an instruction raises in a state, from the table of R201 in the order of R202. -/
def faultOf (s : State) (i : Instr) : Option Fault :=
  match reservedOf s i with
  | some v => some (.reservedOperand v s.pc)
  | none => (accessOf s i).bind (accessFaultOf s)

/-! ### What stays the same -/

/-- Every general register reads as before. -/
def SameRegs (s t : State) : Prop := ∀ r, t.reg r = s.reg r

/-- Every byte of memory reads as before. -/
def SameBytes (s t : State) : Prop := ∀ a, t.byte a = s.byte a

/-- The effect of an instruction whose one result is the value `v` for `x[rd]`: a write to `x[0]` is discarded (R11),
every other register, both special files, every byte of memory and the configuration are as before, and `pc` moves past
the instruction (R14). -/
def RegResult (s t : State) (rd : Reg) (v : Word) : Prop :=
  (rd ≠ 0#5 → t.reg rd = v) ∧ (rd = 0#5 → t.reg rd = 0#32) ∧ (∀ r, r ≠ rd → t.reg r = s.reg r) ∧
  t.pc = s.pc + 4#32 ∧ t.psrf = s.psrf ∧ t.corf = s.corf ∧ SameBytes s t ∧ t.cfg = s.cfg

/-- The effect of a store but for the bytes it writes: no register, psrf or corf entry changes, and `pc` moves past the
instruction (R12, R14). -/
def StoreFrame (s t : State) : Prop :=
  SameRegs s t ∧ t.pc = s.pc + 4#32 ∧ t.psrf = s.psrf ∧ t.corf = s.corf ∧ t.cfg = s.cfg

/-- The two states agree on everything but the psrf values, the psrf tags and the corf entries: registers, `pc`, memory,
configuration and the lengths of the two files. -/
def SameButSpecialFiles (s t : State) : Prop :=
  t.regs = s.regs ∧ t.pc = s.pc ∧ t.mem = s.mem ∧ t.cfg = s.cfg ∧ t.psrf.length = s.psrf.length ∧
  t.corf.length = s.corf.length

/-! ### Invariant and runs -/

/-- The invariant of the machine: memory is in canonical form and lists bytes of MEM only; the tags are PSRF_TAG_INIT
(R17), so the psrf has NPS entries; the corf has NCO entries (R18); the configuration meets the spec's constraints; and
`pc` is even (R13, R59). -/
def State.Inv (s : State) : Prop :=
  s.mem.wf = true ∧ (∀ c ∈ s.mem, s.inMem (BitVec.ofNat 32 c.1) = true) ∧
  s.psrf.map PsrfEntry.tag = s.cfg.psrfTagInit ∧ s.corf.length = s.cfg.nco ∧ s.cfg.Valid ∧ s.pc.toNat % 2 = 0

/-- Execute a list of instructions one after the other, without fetching them. -/
def execAll : List Instr → State → Host.Outcome State Fault Refusal
  | [], s => .next s
  | i :: is, s =>
    match exec i s with
    | .next t => execAll is t
    | .fault f => .fault f
    | .refused r => .refused r

end Sys2Proof.Machine
end

