-- ==== Sys2Proof/Certificates/Slice0/Obligations.lean ====
section
/-! DEFINITION. The statements about the model of XVI-V. Each cites the rule of spec/ it formalises; a clause that rests
on a decision the spec marks as its own (D<n>, 92_eei_decisions.md), or on a choice of the model's
(notes/assumptions/<n>.md), says so. -/

open Sys2Proof Sys2Proof.Machine

/-! ## Encoding and decoding -/

/-- Decoding the encoding of any well-formed instruction gives the instruction back, at every value of every operand
(30_encoding.md R51 to R62). -/
def Obligations.DecodeOfEncode : Prop :=
  ∀ i : Instr, i.wellFormed = true → decodeWord (encode i) = .ok i

/-- A word that decodes is well-formed and is the encoding of what it decodes to: every bit of a legal word is a fixed
field or an operand (30_encoding.md R62). -/
def Obligations.EncodeOfDecode : Prop :=
  ∀ (w : Word) (i : Instr), decodeWord w = .ok i → i.wellFormed = true ∧ encode i = w

/-- A word decodes exactly when one of the 36 rows of R62 covers it and, under opcode 0x15, its two register fields are
equal; every other word is refused (30_encoding.md R62, R63; D3, D6, D22). -/
def Obligations.LegalWordsAreTheRows : Prop :=
  ∀ w : Word, (∃ i, decodeWord w = .ok i) ↔ legalWord w = true

/-- No word is covered by two rows of R62: at every word the number of covering rows is at most one. -/
def Obligations.RowsDoNotOverlap : Prop :=
  ∀ w : Word, (opRows.filter fun r => r.covers w).length ≤ 1

/-- "Each CPU instruction is 32 bits long" (30_encoding.md R50): the decoder takes four bytes, lowest address first, and
hands back the rest; fewer than four are no instruction. -/
def Obligations.EveryInstructionIsFourBytes : Prop :=
  (∀ (w : Word) (i : Instr) (rest : List Byte), decodeWord w = .ok i →
    decodeBytes (wordBytes w ++ rest) = .ok (i, rest)) ∧
  (∀ (w : Word) (e : Reject) (rest : List Byte), decodeWord w = .error e →
    decodeBytes (wordBytes w ++ rest) = .error e) ∧
  (∀ bs : List Byte, bs.length < 4 → decodeBytes bs = .error .truncated)

/-- The worked encodings of 30_encoding.md section 7 decode to the instructions they stand for. -/
def Obligations.WorkedEncodingsDecode : Prop :=
  decodeWord 0x002081B3#32 = .ok (.add 3 1 2) ∧ decodeWord 0xFFF00093#32 = .ok (.addi 1 0 0xFFF#12) ∧
  decodeWord 0x40435293#32 = .ok (.srai 5 6 4) ∧ decodeWord 0x0020A423#32 = .ok (.sw 2 1 8) ∧
  decodeWord 0x123453B7#32 = .ok (.lui 7 0x12345#20) ∧
  decodeWord 0xFE730AE4#32 = .ok (.psrfBranch 6 7 (BitVec.ofInt 13 (-12))) ∧
  decodeWord 0x00157284#32 = .ok (.psrfLw 5 10 1)

/-! ## One step (10_state.md R14) -/

/-- When the run is not over, `pc` is a multiple of 4, its four bytes are memory and, read little-endian, decode to `i`,
then `i` is well-formed and the step is the execution of `i` (10_state.md R14, 20_memory.md R31, R35; D8, D11). -/
def Obligations.StepRunsDecodedInstruction : Prop :=
  ∀ (s : State) (i : Instr), s.cfg.haltPc ≠ some s.pc → s.pc.toNat % 4 = 0 →
    s.inMem s.pc = true → s.inMem (s.pc + 1#32) = true → s.inMem (s.pc + 2#32) = true → s.inMem (s.pc + 3#32) = true →
    decodeWord (s.byte (s.pc + 3#32) ++ s.byte (s.pc + 2#32) ++ s.byte (s.pc + 1#32) ++ s.byte s.pc) = .ok i →
    i.wellFormed = true ∧ step s = exec i s

/-- The four ways a step stops before an instruction is executed, in the order of R14 and R202: the run is over (no
fault; how the model answers it is its own choice, notes/assumptions/7.md); a misaligned `pc`; a byte of the fetch
outside MEM; a word that does not decode (30_encoding.md R63; 60_exceptions.md R201; D3, D11, D12, D13). -/
def Obligations.StepStopsBeforeExecuting : Prop :=
  ∀ s : State,
    (s.cfg.haltPc = some s.pc → step s = .refused .halted) ∧
    (s.cfg.haltPc ≠ some s.pc → s.pc.toNat % 4 ≠ 0 → step s = .fault (.misalignedFetch s.pc)) ∧
    (s.cfg.haltPc ≠ some s.pc → s.pc.toNat % 4 = 0 → (∃ b ∈ accessed s.pc 4, s.inMem b = false) →
      step s = .fault (.fetchAccess s.pc)) ∧
    (s.cfg.haltPc ≠ some s.pc → s.pc.toNat % 4 = 0 → (∀ b ∈ accessed s.pc 4, s.inMem b = true) →
      ∀ (w : Word) (e : Reject),
        w = s.byte (s.pc + 3#32) ++ s.byte (s.pc + 2#32) ++ s.byte (s.pc + 1#32) ++ s.byte s.pc →
        decodeWord w = .error e → step s = .fault (.illegalInstruction w s.pc))

/-- An opcode-table word that decodes, placed where the next fetch reads it, is what the next step runs, whatever the
state (10_state.md R14, 20_memory.md R31, R35; how a program comes to stand in memory is the model's own,
notes/assumptions/21.md). -/
def Obligations.PlacedInstructionRuns : Prop :=
  ∀ (s : State) (nbits w : Nat) (i : Instr), decodeTableWord nbits w = some i →
    step (s.withFetchWord nbits w) = exec i (s.withFetchWord nbits w)

/-! ## Arithmetic Operations (40_arithmetic.md)

Each statement gives the instruction's word, that it completes in every state, its result, and that nothing else
changes (`RegResult`: `x[0]` discards the write, `pc` moves by 4; R11 and R14 are the spec's decisions D2 and D11). -/

/-- ADD and SUB, wrapping modulo 2^32 (40_arithmetic.md R102, R103; the wrap is R100, decision D7). -/
def Obligations.AddSubResult : Prop :=
  ∀ (s : State) (rd rs1 rs2 : Reg),
    (decodeWord (0x00#7 ++ rs2 ++ rs1 ++ 0#3 ++ rd ++ 0x33#7) = .ok (.add rd rs1 rs2) ∧
      ∃ t, exec (.add rd rs1 rs2) s = .next t ∧
        RegResult s t rd (BitVec.ofNat 32 ((s.reg rs1).toNat + (s.reg rs2).toNat))) ∧
    (decodeWord (0x20#7 ++ rs2 ++ rs1 ++ 0#3 ++ rd ++ 0x33#7) = .ok (.sub rd rs1 rs2) ∧
      ∃ t, exec (.sub rd rs1 rs2) s = .next t ∧
        RegResult s t rd (BitVec.ofInt 32 (((s.reg rs1).toNat : Int) - ((s.reg rs2).toNat : Int))))

/-- SLL, SRL and SRA shift by the low five bits of `x[rs2]`: a product, a quotient, and a quotient of the signed value
rounded down (40_arithmetic.md R104, R108, R109; the masking is R101, decision D6). -/
def Obligations.RegisterShiftResult : Prop :=
  ∀ (s : State) (rd rs1 rs2 : Reg),
    (decodeWord (0x00#7 ++ rs2 ++ rs1 ++ 1#3 ++ rd ++ 0x33#7) = .ok (.sll rd rs1 rs2) ∧
      ∃ t, exec (.sll rd rs1 rs2) s = .next t ∧
        RegResult s t rd (BitVec.ofNat 32 ((s.reg rs1).toNat * 2 ^ ((s.reg rs2).toNat % 32)))) ∧
    (decodeWord (0x00#7 ++ rs2 ++ rs1 ++ 5#3 ++ rd ++ 0x33#7) = .ok (.srl rd rs1 rs2) ∧
      ∃ t, exec (.srl rd rs1 rs2) s = .next t ∧
        RegResult s t rd (BitVec.ofNat 32 ((s.reg rs1).toNat / 2 ^ ((s.reg rs2).toNat % 32)))) ∧
    (decodeWord (0x20#7 ++ rs2 ++ rs1 ++ 5#3 ++ rd ++ 0x33#7) = .ok (.sra rd rs1 rs2) ∧
      ∃ t, exec (.sra rd rs1 rs2) s = .next t ∧
        RegResult s t rd (BitVec.ofInt 32 ((s.reg rs1).toInt / 2 ^ ((s.reg rs2).toNat % 32))))

/-- SLT: 1 or 0, as the signed integers compare (40_arithmetic.md R105; that SLT is the signed one is the spec's reading,
90_conflicts.md C6). -/
def Obligations.SltResult : Prop :=
  ∀ (s : State) (rd rs1 rs2 : Reg),
    decodeWord (0x00#7 ++ rs2 ++ rs1 ++ 2#3 ++ rd ++ 0x33#7) = .ok (.slt rd rs1 rs2) ∧
    ∃ t, exec (.slt rd rs1 rs2) s = .next t ∧
      RegResult s t rd (if (s.reg rs1).toInt < (s.reg rs2).toInt then 1#32 else 0#32)

/-- SLTU: 1 or 0, as the unsigned integers compare (40_arithmetic.md R106). What it leaves unchanged:
XorSltuLuiFrame. -/
def Obligations.SltuResult : Prop :=
  ∀ (s : State) (rd rs1 rs2 : Reg),
    decodeWord (0x00#7 ++ rs2 ++ rs1 ++ 3#3 ++ rd ++ 0x33#7) = .ok (.sltu rd rs1 rs2) ∧
    ∃ t, exec (.sltu rd rs1 rs2) s = .next t ∧
      (rd ≠ 0#5 → t.reg rd = if (s.reg rs1).toNat < (s.reg rs2).toNat then 1#32 else 0#32)

/-- XOR, bit by bit (40_arithmetic.md R107). What it leaves unchanged: XorSltuLuiFrame. -/
def Obligations.XorResult : Prop :=
  ∀ (s : State) (rd rs1 rs2 : Reg),
    decodeWord (0x00#7 ++ rs2 ++ rs1 ++ 4#3 ++ rd ++ 0x33#7) = .ok (.xor rd rs1 rs2) ∧
    ∃ t, exec (.xor rd rs1 rs2) s = .next t ∧
      (rd ≠ 0#5 → ∀ k < 32, (t.reg rd).getLsbD k = ((s.reg rs1).getLsbD k != (s.reg rs2).getLsbD k))

/-- OR and AND, bit by bit, not a Boolean 0 or 1 (40_arithmetic.md R110, R111; the bitwise reading is the spec's,
93_implementation_defined.md G7). -/
def Obligations.OrAndResult : Prop :=
  ∀ (s : State) (rd rs1 rs2 : Reg),
    (decodeWord (0x00#7 ++ rs2 ++ rs1 ++ 6#3 ++ rd ++ 0x33#7) = .ok (.or rd rs1 rs2) ∧
      ∃ t v, exec (.or rd rs1 rs2) s = .next t ∧ RegResult s t rd v ∧
        ∀ k < 32, v.getLsbD k = ((s.reg rs1).getLsbD k || (s.reg rs2).getLsbD k)) ∧
    (decodeWord (0x00#7 ++ rs2 ++ rs1 ++ 7#3 ++ rd ++ 0x33#7) = .ok (.and rd rs1 rs2) ∧
      ∃ t v, exec (.and rd rs1 rs2) s = .next t ∧ RegResult s t rd v ∧
        ∀ k < 32, v.getLsbD k = ((s.reg rs1).getLsbD k && (s.reg rs2).getLsbD k))

/-! ## Arithmetic Immediate Operations (41_arithmetic_immediate.md) -/

/-- ADDI: the sum with the signed immediate, modulo 2^32 (41_arithmetic_immediate.md R121; sign extension R120, D5;
wrap D7). -/
def Obligations.AddiResult : Prop :=
  ∀ (s : State) (rd rs1 : Reg) (imm : BitVec 12),
    decodeWord (imm ++ rs1 ++ 0#3 ++ rd ++ 0x13#7) = .ok (.addi rd rs1 imm) ∧
    ∃ t, exec (.addi rd rs1 imm) s = .next t ∧
      RegResult s t rd (BitVec.ofInt 32 ((s.reg rs1).toInt + imm.toInt))

/-- SLTI compares as signed; SLTIU first sign-extends the immediate to 32 bits and then compares as unsigned
(41_arithmetic_immediate.md R123, R124; R120, D5). -/
def Obligations.SltiSltiuResult : Prop :=
  ∀ (s : State) (rd rs1 : Reg) (imm : BitVec 12),
    (decodeWord (imm ++ rs1 ++ 2#3 ++ rd ++ 0x13#7) = .ok (.slti rd rs1 imm) ∧
      ∃ t, exec (.slti rd rs1 imm) s = .next t ∧
        RegResult s t rd (if (s.reg rs1).toInt < imm.toInt then 1#32 else 0#32)) ∧
    (decodeWord (imm ++ rs1 ++ 3#3 ++ rd ++ 0x13#7) = .ok (.sltiu rd rs1 imm) ∧
      ∃ t, exec (.sltiu rd rs1 imm) s = .next t ∧
        RegResult s t rd (if (s.reg rs1).toNat < (BitVec.ofInt 32 imm.toInt).toNat then 1#32 else 0#32))

/-- XORI, ORI and ANDI, bit by bit; bits 11 and up of the operand are the immediate's sign
(41_arithmetic_immediate.md R125, R128, R129; R120, D5). -/
def Obligations.LogicImmediateResult : Prop :=
  ∀ (s : State) (rd rs1 : Reg) (imm : BitVec 12),
    (decodeWord (imm ++ rs1 ++ 4#3 ++ rd ++ 0x13#7) = .ok (.xori rd rs1 imm) ∧
      ∃ t v, exec (.xori rd rs1 imm) s = .next t ∧ RegResult s t rd v ∧
        ∀ k < 32, v.getLsbD k = ((s.reg rs1).getLsbD k != imm.getLsbD (min k 11))) ∧
    (decodeWord (imm ++ rs1 ++ 6#3 ++ rd ++ 0x13#7) = .ok (.ori rd rs1 imm) ∧
      ∃ t v, exec (.ori rd rs1 imm) s = .next t ∧ RegResult s t rd v ∧
        ∀ k < 32, v.getLsbD k = ((s.reg rs1).getLsbD k || imm.getLsbD (min k 11))) ∧
    (decodeWord (imm ++ rs1 ++ 7#3 ++ rd ++ 0x13#7) = .ok (.andi rd rs1 imm) ∧
      ∃ t v, exec (.andi rd rs1 imm) s = .next t ∧ RegResult s t rd v ∧
        ∀ k < 32, v.getLsbD k = ((s.reg rs1).getLsbD k && imm.getLsbD (min k 11)))

/-- SLLI, SRLI and SRAI shift by 0 to 31; with any other `inst[31:25]` their words are illegal
(41_arithmetic_immediate.md R122, R126, R127; D6). -/
def Obligations.ImmediateShiftResult : Prop :=
  ∀ (s : State) (rd rs1 : Reg) (shamt : BitVec 5),
    (decodeWord (0x00#7 ++ shamt ++ rs1 ++ 1#3 ++ rd ++ 0x13#7) = .ok (.slli rd rs1 shamt) ∧
      ∃ t, exec (.slli rd rs1 shamt) s = .next t ∧
        RegResult s t rd (BitVec.ofNat 32 ((s.reg rs1).toNat * 2 ^ shamt.toNat))) ∧
    (decodeWord (0x00#7 ++ shamt ++ rs1 ++ 5#3 ++ rd ++ 0x13#7) = .ok (.srli rd rs1 shamt) ∧
      ∃ t, exec (.srli rd rs1 shamt) s = .next t ∧
        RegResult s t rd (BitVec.ofNat 32 ((s.reg rs1).toNat / 2 ^ shamt.toNat))) ∧
    (decodeWord (0x20#7 ++ shamt ++ rs1 ++ 5#3 ++ rd ++ 0x13#7) = .ok (.srai rd rs1 shamt) ∧
      ∃ t, exec (.srai rd rs1 shamt) s = .next t ∧
        RegResult s t rd (BitVec.ofInt 32 ((s.reg rs1).toInt / 2 ^ shamt.toNat))) ∧
    (∀ upper : BitVec 7, upper ≠ 0x00#7 →
      decodeWord (upper ++ shamt ++ rs1 ++ 1#3 ++ rd ++ 0x13#7) = .error (.unknownFunct7 1#3 upper) ∧
      (upper ≠ 0x20#7 →
        decodeWord (upper ++ shamt ++ rs1 ++ 5#3 ++ rd ++ 0x13#7) = .error (.unknownFunct7 5#3 upper)))

/-- LUI: the 20-bit field times 4096 (41_arithmetic_immediate.md R130). What it leaves unchanged: XorSltuLuiFrame. -/
def Obligations.LuiResult : Prop :=
  ∀ (s : State) (rd : Reg) (imm : BitVec 20),
    decodeWord (imm ++ rd ++ 0x37#7) = .ok (.lui rd imm) ∧
    ∃ t, exec (.lui rd imm) s = .next t ∧ (rd ≠ 0#5 → t.reg rd = BitVec.ofNat 32 (imm.toNat * 4096))

/-- XOR, SLTU and LUI complete in every state and change nothing but the destination register and `pc`: `x[0]` discards
the write, and `pc` moves past the instruction (10_state.md R12, R11, decision D2; R14, decision D11). -/
def Obligations.XorSltuLuiFrame : Prop :=
  ∀ (s : State) (i : Instr) (rd rs1 rs2 : Reg) (imm : BitVec 20),
    i = .xor rd rs1 rs2 ∨ i = .sltu rd rs1 rs2 ∨ i = .lui rd imm →
    ∃ t, exec i s = .next t ∧ t.reg 0#5 = 0#32 ∧ (∀ r, r ≠ rd → t.reg r = s.reg r) ∧ t.pc = s.pc + 4#32 ∧
      t.psrf = s.psrf ∧ t.corf = s.corf ∧ SameBytes s t ∧ t.cfg = s.cfg

/-- AUIPC: the address of the instruction itself plus the 20-bit field times 4096, modulo 2^32
(41_arithmetic_immediate.md R131; opcode 0x17 is decision D4, the base D11). -/
def Obligations.AuipcResult : Prop :=
  ∀ (s : State) (rd : Reg) (imm : BitVec 20),
    decodeWord (imm ++ rd ++ 0x17#7) = .ok (.auipc rd imm) ∧
    ∃ t, exec (.auipc rd imm) s = .next t ∧ RegResult s t rd (BitVec.ofNat 32 (s.pc.toNat + imm.toNat * 4096))

/-! ## Memory Instructions (42_memory_instructions.md) -/

/-- The effective address is the base register plus the signed displacement, modulo 2^32 (42_memory_instructions.md R140,
20_memory.md R43; D5, D12). -/
def Obligations.EffectiveAddressWraps : Prop :=
  ∀ (s : State) (rs1 : Reg) (imm : BitVec 12), s.ea rs1 imm = BitVec.ofInt 32 ((s.reg rs1).toInt + imm.toInt)

/-- LB and LBU: a byte in MEM is loaded, sign-extended and zero-extended (42_memory_instructions.md R141, R144; D10). -/
def Obligations.LoadByteResult : Prop :=
  ∀ (s : State) (rd rs1 : Reg) (imm : BitVec 12),
    decodeWord (imm ++ rs1 ++ 0#3 ++ rd ++ 0x03#7) = .ok (.lb rd rs1 imm) ∧
    decodeWord (imm ++ rs1 ++ 4#3 ++ rd ++ 0x03#7) = .ok (.lbu rd rs1 imm) ∧
    (s.inMem (s.ea rs1 imm) = true →
      (∃ t, exec (.lb rd rs1 imm) s = .next t ∧
        RegResult s t rd (BitVec.ofInt 32 (s.byte (s.ea rs1 imm)).toInt)) ∧
      (∃ t, exec (.lbu rd rs1 imm) s = .next t ∧
        RegResult s t rd (BitVec.ofNat 32 (s.byte (s.ea rs1 imm)).toNat)))

/-- LH and LHU: an aligned halfword in MEM is loaded, the byte at the lower address in its low half, sign-extended and
zero-extended (42_memory_instructions.md R142, R145; D8, D9, D10). -/
def Obligations.LoadHalfResult : Prop :=
  ∀ (s : State) (rd rs1 : Reg) (imm : BitVec 12) (a : Word), a = s.ea rs1 imm →
    decodeWord (imm ++ rs1 ++ 1#3 ++ rd ++ 0x03#7) = .ok (.lh rd rs1 imm) ∧
    decodeWord (imm ++ rs1 ++ 5#3 ++ rd ++ 0x03#7) = .ok (.lhu rd rs1 imm) ∧
    (a.toNat % 2 = 0 → s.inMem a = true → s.inMem (a + 1#32) = true →
      (∃ t, exec (.lh rd rs1 imm) s = .next t ∧
        RegResult s t rd (BitVec.ofInt 32 ((s.byte (a + 1#32)).toInt * 256 + (s.byte a).toNat))) ∧
      (∃ t, exec (.lhu rd rs1 imm) s = .next t ∧
        RegResult s t rd (BitVec.ofNat 32 ((s.byte (a + 1#32)).toNat * 256 + (s.byte a).toNat))))

/-- LW: an aligned word in MEM is loaded, little-endian (42_memory_instructions.md R143; D8, D9). -/
def Obligations.LoadWordResult : Prop :=
  ∀ (s : State) (rd rs1 : Reg) (imm : BitVec 12) (a : Word), a = s.ea rs1 imm →
    decodeWord (imm ++ rs1 ++ 2#3 ++ rd ++ 0x03#7) = .ok (.lw rd rs1 imm) ∧
    (a.toNat % 4 = 0 → s.inMem a = true → s.inMem (a + 1#32) = true → s.inMem (a + 2#32) = true →
      s.inMem (a + 3#32) = true →
      ∃ t, exec (.lw rd rs1 imm) s = .next t ∧
        RegResult s t rd (s.byte (a + 3#32) ++ s.byte (a + 2#32) ++ s.byte (a + 1#32) ++ s.byte a))

/-- SB: the byte at the effective address becomes the low byte of `x[rs2]`; nothing else changes
(42_memory_instructions.md R146; D12, D18). -/
def Obligations.StoreByteResult : Prop :=
  ∀ (s : State) (rs2 rs1 : Reg) (imm : BitVec 12) (a : Word), a = s.ea rs1 imm →
    decodeWord (imm.extractLsb' 5 7 ++ rs2 ++ rs1 ++ 0#3 ++ imm.extractLsb' 0 5 ++ 0x23#7) = .ok (.sb rs2 rs1 imm) ∧
    (s.inMem a = true → s.inCode a = false →
      ∃ t, exec (.sb rs2 rs1 imm) s = .next t ∧ StoreFrame s t ∧
        t.byte a = BitVec.ofNat 8 (s.reg rs2).toNat ∧ ∀ b, b ≠ a → t.byte b = s.byte b)

/-- SH: low byte to the effective address, high byte to the next; nothing else changes (42_memory_instructions.md R147;
D8, D9, D12, D18). -/
def Obligations.StoreHalfResult : Prop :=
  ∀ (s : State) (rs2 rs1 : Reg) (imm : BitVec 12) (a : Word), a = s.ea rs1 imm →
    decodeWord (imm.extractLsb' 5 7 ++ rs2 ++ rs1 ++ 1#3 ++ imm.extractLsb' 0 5 ++ 0x23#7) = .ok (.sh rs2 rs1 imm) ∧
    (a.toNat % 2 = 0 → (∀ b ∈ accessed a 2, s.inMem b = true ∧ s.inCode b = false) →
      ∃ t, exec (.sh rs2 rs1 imm) s = .next t ∧ StoreFrame s t ∧
        t.byte a = BitVec.ofNat 8 (s.reg rs2).toNat ∧ t.byte (a + 1#32) = BitVec.ofNat 8 ((s.reg rs2).toNat / 256) ∧
        ∀ b, b ∉ accessed a 2 → t.byte b = s.byte b)

/-- SW: the four bytes of `x[rs2]`, lowest first; nothing else changes (42_memory_instructions.md R148; D8, D9, D12,
D18). -/
def Obligations.StoreWordResult : Prop :=
  ∀ (s : State) (rs2 rs1 : Reg) (imm : BitVec 12) (a : Word), a = s.ea rs1 imm →
    decodeWord (imm.extractLsb' 5 7 ++ rs2 ++ rs1 ++ 2#3 ++ imm.extractLsb' 0 5 ++ 0x23#7) = .ok (.sw rs2 rs1 imm) ∧
    (a.toNat % 4 = 0 → (∀ b ∈ accessed a 4, s.inMem b = true ∧ s.inCode b = false) →
      ∃ t, exec (.sw rs2 rs1 imm) s = .next t ∧ StoreFrame s t ∧
        t.byte a = BitVec.ofNat 8 (s.reg rs2).toNat ∧ t.byte (a + 1#32) = BitVec.ofNat 8 ((s.reg rs2).toNat / 256) ∧
        t.byte (a + 2#32) = BitVec.ofNat 8 ((s.reg rs2).toNat / 65536) ∧
        t.byte (a + 3#32) = BitVec.ofNat 8 ((s.reg rs2).toNat / 16777216) ∧
        ∀ b, b ∉ accessed a 4 → t.byte b = s.byte b)

/-- A load of the same width at the address of a store, next in program order, completes and returns what was stored:
the word, the halfword zero-extended, the byte zero-extended (20_memory.md R40, D17; R37, D12). -/
def Obligations.LoadAfterStoreReturnsValue : Prop :=
  ∀ (s t : State) (rs2 rs1 rd rs : Reg) (imm off : BitVec 12), rd ≠ 0#5 → t.ea rs off = s.ea rs1 imm →
    (exec (.sw rs2 rs1 imm) s = .next t →
      ∃ u, exec (.lw rd rs off) t = .next u ∧ u.reg rd = s.reg rs2) ∧
    (exec (.sh rs2 rs1 imm) s = .next t →
      ∃ u, exec (.lhu rd rs off) t = .next u ∧ u.reg rd = BitVec.ofNat 32 ((s.reg rs2).toNat % 65536)) ∧
    (exec (.sb rs2 rs1 imm) s = .next t →
      ∃ u, exec (.lbu rd rs off) t = .next u ∧ u.reg rd = BitVec.ofNat 32 ((s.reg rs2).toNat % 256))

/-- After SW to `a`, LBU at `a` reads the low byte of the word and LHU at `a + 2` its high half (20_memory.md R31;
little-endian is decision D8). -/
def Obligations.MixedWidthLittleEndian : Prop :=
  ∀ (s t : State) (rs2 rs1 rd rs : Reg) (imm off : BitVec 12), rd ≠ 0#5 → exec (.sw rs2 rs1 imm) s = .next t →
    (t.ea rs off = s.ea rs1 imm →
      ∃ u, exec (.lbu rd rs off) t = .next u ∧ u.reg rd = BitVec.ofNat 32 ((s.reg rs2).toNat % 256)) ∧
    (t.ea rs off = s.ea rs1 imm + 2#32 →
      ∃ u, exec (.lhu rd rs off) t = .next u ∧ u.reg rd = BitVec.ofNat 32 ((s.reg rs2).toNat / 65536))

/-! ## Special instructions (43_xviv_special.md) -/

/-- The address of `psrf.lw` and `psrf.sw` is the base register plus the sum of the psrf values that AGU_SELECT(var)
lists, modulo 2^32 (43_xviv_special.md R160 to R162; D20). It holds of every AGU_SELECT whose indices are below NPS. -/
def Obligations.AguAddressIsTheSum : Prop :=
  ∀ (s : State) (rs1 : Reg) (var : BitVec 12) (sel : List Nat),
    s.cfg.aguSelect[var.toNat]? = some sel → (∀ k ∈ sel, k < s.psrf.length) →
    s.psrfAddr rs1 var =
      BitVec.ofNat 32 ((sel.map fun k => (s.psrf.getD k ⟨0#32, 0#5⟩).val.toNat).sum + (s.reg rs1).toNat)

/-- psrf.lw with `var` below 3, at an aligned address whose four bytes are in MEM, loads the word there
(43_xviv_special.md R161; D8, D9, D20, D21). -/
def Obligations.PsrfLwResult : Prop :=
  ∀ (s : State) (rd rs1 : Reg) (var : BitVec 12) (a : Word), a = s.psrfAddr rs1 var →
    decodeWord (var ++ rs1 ++ 7#3 ++ rd ++ 0x04#7) = .ok (.psrfLw rd rs1 var) ∧
    (var.toNat < 3 → a.toNat % 4 = 0 → (∀ b ∈ accessed a 4, s.inMem b = true) →
      ∃ t, exec (.psrfLw rd rs1 var) s = .next t ∧
        RegResult s t rd (s.byte (a + 3#32) ++ s.byte (a + 2#32) ++ s.byte (a + 1#32) ++ s.byte a))

/-- psrf.sw with `var` below 3, at an aligned address whose four bytes are in MEM and not in CODE, stores `x[rs2]` there,
lowest byte first; nothing else changes (43_xviv_special.md R162; D8, D9, D18, D20, D21). -/
def Obligations.PsrfSwResult : Prop :=
  ∀ (s : State) (rs2 rs1 : Reg) (var : BitVec 12) (a : Word), a = s.psrfAddr rs1 var →
    decodeWord (var.extractLsb' 5 7 ++ rs2 ++ rs1 ++ 4#3 ++ var.extractLsb' 0 5 ++ 0x24#7) =
      .ok (.psrfSw rs2 rs1 var) ∧
    (var.toNat < 3 → a.toNat % 4 = 0 → (∀ b ∈ accessed a 4, s.inMem b = true ∧ s.inCode b = false) →
      ∃ t, exec (.psrfSw rs2 rs1 var) s = .next t ∧ StoreFrame s t ∧
        t.byte a = BitVec.ofNat 8 (s.reg rs2).toNat ∧ t.byte (a + 1#32) = BitVec.ofNat 8 ((s.reg rs2).toNat / 256) ∧
        t.byte (a + 2#32) = BitVec.ofNat 8 ((s.reg rs2).toNat / 65536) ∧
        t.byte (a + 3#32) = BitVec.ofNat 8 ((s.reg rs2).toNat / 16777216) ∧
        ∀ b, b ∉ accessed a 4 → t.byte b = s.byte b)

/-- With every selected psrf value 0, psrf.lw behaves as `lw rd, 0(rs1)` and psrf.sw as `sw rs2, 0(rs1)`, faults
included (43_xviv_special.md R161, R162, corner case; D20, D21). -/
def Obligations.ZeroSumsAreLwAndSw : Prop :=
  ∀ (s : State) (r rs1 : Reg) (var : BitVec 12) (sel : List Nat),
    s.cfg.aguSelect[var.toNat]? = some sel → (∀ k ∈ sel, ∃ tag, s.psrf[k]? = some ⟨0#32, tag⟩) →
    exec (.psrfLw r rs1 var) s = exec (.lw r rs1 0#12) s ∧ exec (.psrfSw r rs1 var) s = exec (.sw r rs1 0#12) s

/-- psrf.addi: the counter gets the immediate, every entry tagged with its number gets its corf entry added once, all
modulo 2^32, no tag changes, and nothing else does. With `d = 0` the counter stays 0 and the entries tagged 0 are still
stepped. A word whose register fields differ is refused (43_xviv_special.md R163; D22). -/
def Obligations.PsrfAddiResult : Prop :=
  ∀ (s : State) (d : Reg) (imm : BitVec 12),
    decodeWord (imm ++ d ++ 0#3 ++ d ++ 0x15#7) = .ok (.psrfAddi d imm) ∧
    (∀ r, r ≠ d → decodeWord (imm ++ r ++ 0#3 ++ d ++ 0x15#7) = .error (.registersDiffer r d)) ∧
    ∃ t, exec (.psrfAddi d imm) s = .next t ∧
      (d ≠ 0#5 → t.reg d = BitVec.ofInt 32 ((s.reg d).toInt + imm.toInt)) ∧ (d = 0#5 → t.reg d = 0#32) ∧
      (∀ r, r ≠ d → t.reg r = s.reg r) ∧ t.pc = s.pc + 4#32 ∧ t.psrf.length = s.psrf.length ∧
      (∀ (k : Nat) (e : PsrfEntry), s.psrf[k]? = some e → e.tag ≠ d → t.psrf[k]? = some e) ∧
      (∀ (k : Nat) (e : PsrfEntry) (c : Word), s.psrf[k]? = some e → e.tag = d → s.corf[k]? = some c →
        t.psrf[k]? = some ⟨BitVec.ofNat 32 (e.val.toNat + c.toNat), e.tag⟩) ∧
      t.corf = s.corf ∧ SameBytes s t ∧ t.cfg = s.cfg

/-- psrf.addi on a register that tags no entry is a plain addi (43_xviv_special.md R163, corner case; D22). -/
def Obligations.UntaggedPsrfAddiIsAddi : Prop :=
  ∀ (s : State) (d : Reg) (imm : BitVec 12), (∀ e ∈ s.psrf, e.tag ≠ d) →
    exec (.psrfAddi d imm) s = exec (.addi d d imm) s

/-- psrf.branch completes in every state. Taken, it sets `pc` to its own address plus the signed offset and writes no
psrf entry; not taken, it clears the value of every entry whose tag is the register PSRF_BRANCH_TAGSEL selects, keeps the
tags, and moves past the instruction. No register, corf entry or byte changes either way. The test is the open parameter
PSRF_BRANCH_COND, whatever it is (43_xviv_special.md R164, 30_encoding.md R55, R59; D5, D11, D23). -/
def Obligations.PsrfBranchResult : Prop :=
  ∀ (s : State) (rs1 rs2 : Reg) (imm : BitVec 13),
    (imm.toNat % 2 = 0 →
      decodeWord (imm.extractLsb' 12 1 ++ imm.extractLsb' 5 6 ++ rs2 ++ rs1 ++ 0#3 ++ imm.extractLsb' 1 4 ++
        imm.extractLsb' 11 1 ++ 0x64#7) = .ok (.psrfBranch rs1 rs2 imm)) ∧
    ∃ t, exec (.psrfBranch rs1 rs2 imm) s = .next t ∧ SameRegs s t ∧ t.corf = s.corf ∧ SameBytes s t ∧
      t.cfg = s.cfg ∧ t.psrf.length = s.psrf.length ∧
      if Config.psrfBranchCond (s.reg rs1) (s.reg rs2) = true then
        t.pc = BitVec.ofInt 32 ((s.pc.toNat : Int) + imm.toInt) ∧ t.psrf = s.psrf
      else
        t.pc = s.pc + 4#32 ∧
        ∀ (k : Nat) (e : PsrfEntry), s.psrf[k]? = some e →
          t.psrf[k]? = some
            (if e.tag = (if s.cfg.tagSel = .rs1 then rs1 else rs2) then ⟨0#32, e.tag⟩ else e)

/-- A psrf.branch of offset 0 changes nothing when taken, not even `pc`, and so repeats for ever; not taken, it moves past
itself and changes no register, corf entry or byte (43_xviv_special.md R164, corner case; 93_implementation_defined.md
U19; D11, D23). What it clears when not taken: PsrfBranchResult. -/
def Obligations.BranchToSelfChangesNothing : Prop :=
  ∀ (s : State) (rs1 rs2 : Reg),
    if Config.psrfBranchCond (s.reg rs1) (s.reg rs2) = true then exec (.psrfBranch rs1 rs2 0#13) s = .next s
    else ∃ t, exec (.psrfBranch rs1 rs2 0#13) s = .next t ∧ t.pc = s.pc + 4#32 ∧ SameRegs s t ∧ t.corf = s.corf ∧
      SameBytes s t ∧ t.cfg = s.cfg

/-- Along any list of instructions that writes neither corf entry `k` nor, by ppsrf.addi, psrf entry `k`, and in which
every psrf.branch whose tag selection is `d` is taken in the state it is executed in, an entry `k` tagged `d` gains its
corf entry once for each psrf.addi on `d`; when a psrf.branch whose tag selection is `d` then falls through, the entry's
value is 0 (43_xviv_special.md R168, from R163 and R164; D22, D23). -/
def Obligations.PartialSumCountsSteps : Prop :=
  ∀ (is : List Instr) (s t : State) (k : Nat) (d : Reg) (v c : Word),
    s.psrf[k]? = some ⟨v, d⟩ → s.corf[k]? = some c →
    (∀ cd imm, .corfLui cd imm ∈ is → cd.toNat ≠ k) → (∀ cd cs imm, .corfAddi cd cs imm ∈ is → cd.toNat ≠ k) →
    (∀ pd ps imm, .ppsrfAddi pd ps imm ∈ is → pd.toNat ≠ k) →
    (∀ pre post rs1 rs2 imm u, is = pre ++ .psrfBranch rs1 rs2 imm :: post → execAll pre s = .next u →
      u.branchTag rs1 rs2 = d → Config.psrfBranchCond (u.reg rs1) (u.reg rs2) = true) →
    execAll is s = .next t →
    t.psrf[k]? = some ⟨v + BitVec.ofNat 32 (is.countP (stepsCounter d)) * c, d⟩ ∧
    ∀ rs1 rs2 imm, t.branchTag rs1 rs2 = d →
      ∃ u, exec (.psrfBranch rs1 rs2 imm) t = .next u ∧
        u.psrf[k]? = if Config.psrfBranchCond (t.reg rs1) (t.reg rs2) = true then t.psrf[k]? else some ⟨0#32, d⟩

/-- corf.lui: entry `cd` becomes the 20-bit field times 4096; `co[0]` is an ordinary entry; nothing else changes. An
entry number of NCO or more is a reserved operand, and how that fault ends the step is decision D13 (43_xviv_special.md
R165; 10_state.md R15, R19; 60_exceptions.md R200, R201; D11, D13, D19). -/
def Obligations.CorfLuiResult : Prop :=
  ∀ (s : State) (cd : Reg) (imm : BitVec 20),
    decodeWord (imm ++ cd ++ 0x3B#7) = .ok (.corfLui cd imm) ∧
    (s.corf.length ≤ cd.toNat → exec (.corfLui cd imm) s = .fault (.reservedOperand cd.toNat s.pc)) ∧
    (cd.toNat < s.corf.length →
      ∃ t, exec (.corfLui cd imm) s = .next t ∧ SameRegs s t ∧ t.pc = s.pc + 4#32 ∧ t.psrf = s.psrf ∧
        t.corf.length = s.corf.length ∧ t.corf[cd.toNat]? = some (BitVec.ofNat 32 (imm.toNat * 4096)) ∧
        (∀ k, k ≠ cd.toNat → t.corf[k]? = s.corf[k]?) ∧ SameBytes s t ∧ t.cfg = s.cfg)

/-- corf.addi: entry `cd` becomes entry `cs` plus the signed immediate, modulo 2^32, also when the two are one; nothing
else changes (43_xviv_special.md R166; decision D24). Which of two bad entry numbers is reported is the model's choice
(notes/assumptions/16.md). -/
def Obligations.CorfAddiResult : Prop :=
  ∀ (s : State) (cd cs : Reg) (imm : BitVec 12),
    decodeWord (imm ++ cs ++ 0#3 ++ cd ++ 0x14#7) = .ok (.corfAddi cd cs imm) ∧
    (s.corf.length ≤ cs.toNat → exec (.corfAddi cd cs imm) s = .fault (.reservedOperand cs.toNat s.pc)) ∧
    (cs.toNat < s.corf.length → s.corf.length ≤ cd.toNat →
      exec (.corfAddi cd cs imm) s = .fault (.reservedOperand cd.toNat s.pc)) ∧
    (∀ c, s.corf[cs.toNat]? = some c → cd.toNat < s.corf.length →
      ∃ t, exec (.corfAddi cd cs imm) s = .next t ∧ SameRegs s t ∧ t.pc = s.pc + 4#32 ∧ t.psrf = s.psrf ∧
        t.corf.length = s.corf.length ∧ t.corf[cd.toNat]? = some (BitVec.ofInt 32 (c.toInt + imm.toInt)) ∧
        (∀ k, k ≠ cd.toNat → t.corf[k]? = s.corf[k]?) ∧ SameBytes s t ∧ t.cfg = s.cfg)

/-- ppsrf.addi: the value of entry `pd` becomes that of entry `ps` plus the signed immediate, modulo 2^32, its tag kept;
nothing else changes (43_xviv_special.md R167; decision D25). Which of two bad entry numbers is reported is the model's
choice (notes/assumptions/16.md). -/
def Obligations.PpsrfAddiResult : Prop :=
  ∀ (s : State) (pd ps : Reg) (imm : BitVec 12),
    decodeWord (imm ++ ps ++ 1#3 ++ pd ++ 0x14#7) = .ok (.ppsrfAddi pd ps imm) ∧
    (s.psrf.length ≤ ps.toNat → exec (.ppsrfAddi pd ps imm) s = .fault (.reservedOperand ps.toNat s.pc)) ∧
    (ps.toNat < s.psrf.length → s.psrf.length ≤ pd.toNat →
      exec (.ppsrfAddi pd ps imm) s = .fault (.reservedOperand pd.toNat s.pc)) ∧
    (∀ e f, s.psrf[ps.toNat]? = some e → s.psrf[pd.toNat]? = some f →
      ∃ t, exec (.ppsrfAddi pd ps imm) s = .next t ∧ SameRegs s t ∧ t.pc = s.pc + 4#32 ∧
        t.psrf.length = s.psrf.length ∧
        t.psrf[pd.toNat]? = some ⟨BitVec.ofInt 32 (e.val.toInt + imm.toInt), f.tag⟩ ∧
        (∀ k, k ≠ pd.toNat → t.psrf[k]? = s.psrf[k]?) ∧ t.corf = s.corf ∧ SameBytes s t ∧ t.cfg = s.cfg)

/-! ## Faults (60_exceptions.md) -/

/-- Executing an instruction faults exactly when the table of R201 has a fault for it, and then with the first that
applies in the order of R202, with its information and `pc` (60_exceptions.md R200 to R202; D13, D20; which of two bad
entry numbers: notes/assumptions/16.md). -/
def Obligations.ExecFaultsExactly : Prop :=
  ∀ (i : Instr) (s : State) (f : Fault), exec i s = .fault f ↔ faultOf s i = some f

/-- Under a valid configuration, in which CODE is a subset of MEM, a store by SB, SH, SW or psrf.sw that is aligned, has no
reserved operand, touches CODE and lies in MEM but for that, faults StoreToCode (20_memory.md R34, R42; D18). -/
def Obligations.StoreIntoCodeFaults : Prop :=
  ∀ (s : State) (i : Instr) (acc : Access), s.cfg.Valid → accessOf s i = some acc → acc.isStore = true →
    reservedOf s i = none → acc.addr.toNat % acc.size = 0 →
    (∃ b ∈ accessed acc.addr acc.size, s.inCode b = true) →
    (∀ b ∈ accessed acc.addr acc.size, s.inCode b = false → s.inMem b = true) →
    exec i s = .fault (.storeToCode acc.addr s.pc)

/-- No instruction is ever refused; a step is refused exactly when the run is over, `pc = HALT_PC` (10_state.md R14,
70_reset_and_hazards.md R232; D29; notes/assumptions/7.md). -/
def Obligations.OnlyTheEndOfARunIsRefused : Prop :=
  (∀ (i : Instr) (s : State) (r : Refusal), exec i s ≠ .refused r) ∧
  ∀ (s : State) (r : Refusal), step s = .refused r ↔ r = .halted ∧ s.cfg.haltPc = some s.pc

/-- A step from an aligned `pc` leaves an aligned one, or it ran a taken psrf.branch whose offset is 2 modulo 4
(60_exceptions.md R201, row MisalignedFetch; D11, D13). -/
def Obligations.OnlyBranchesMisalignPc : Prop :=
  ∀ s t : State, s.pc.toNat % 4 = 0 → step s = .next t →
    t.pc.toNat % 4 = 0 ∨
    ∃ rs1 rs2 imm, s.fetch = .next (.psrfBranch rs1 rs2 imm) ∧
      Config.psrfBranchCond (s.reg rs1) (s.reg rs2) = true ∧ imm.toNat % 4 = 2

/-! ## The whole machine -/

/-- No instruction changes a general register other than its destination, and those without one change none
(10_state.md R12, derived there from files 40 to 43). -/
def Obligations.RegistersChangeOnlyAtDestination : Prop :=
  ∀ (i : Instr) (s t : State), exec i s = .next t → ∀ r, destOf i ≠ some r → t.reg r = s.reg r

/-- Every instruction but psrf.branch moves `pc` by 4, modulo 2^32 (10_state.md R13 to R15; D11). -/
def Obligations.OnlyBranchAssignsPc : Prop :=
  ∀ (i : Instr) (s t : State), exec i s = .next t → (∀ rs1 rs2 imm, i ≠ .psrfBranch rs1 rs2 imm) →
    t.pc = BitVec.ofNat 32 (s.pc.toNat + 4)

/-- psrf values change only by psrf.addi, psrf.branch and ppsrf.addi, corf entries only by corf.lui and corf.addi; no
instruction changes a tag, or the number of entries of either file (10_state.md R17 to R19; D19, D26). -/
def Obligations.SpecialFilesWrittenOnlyByTheirOwn : Prop :=
  ∀ (i : Instr) (s t : State), exec i s = .next t →
    (writesPsrf i = false → t.psrf = s.psrf) ∧ (writesCorf i = false → t.corf = s.corf) ∧
    t.psrf.map PsrfEntry.tag = s.psrf.map PsrfEntry.tag ∧ t.corf.length = s.corf.length

/-- A byte changes only if the instruction is a store and the byte is one of those it stores to (20_memory.md R34, R37;
10_state.md R12). -/
def Obligations.BytesChangeOnlyWhereStored : Prop :=
  ∀ (i : Instr) (s t : State) (b : Word), exec i s = .next t →
    (∀ acc, accessOf s i = some acc → acc.isStore = true → b ∉ accessed acc.addr acc.size) → t.byte b = s.byte b

/-- No step changes a byte of CODE or a byte outside MEM (20_memory.md R34, R38, R42; D12, D18). -/
def Obligations.StepKeepsCodeAndNonMemory : Prop :=
  ∀ s t : State, step s = .next t → ∀ b, s.inCode b = true ∨ s.inMem b = false → t.byte b = s.byte b

/-- A program observes the psrf values and the corf entries only through the addresses of psrf.lw and psrf.sw: of two
states that differ in the two special files alone, any instruction that makes the same data access in both (so every
psrf.lw and psrf.sw of one generated address, and every other instruction) and completes from the one completes from the
other, and leaves two states that again differ in those files alone (10_state.md R19, derived there from file 43; D19,
D23). -/
def Obligations.SpecialFilesSeenOnlyThroughAddresses : Prop :=
  ∀ (i : Instr) (s u t : State), SameButSpecialFiles s u →
    accessOf s i = accessOf u i → exec i s = .next t →
    ∃ v, exec i u = .next v ∧ SameButSpecialFiles t v

/-- Every step keeps the invariant: memory canonical and inside MEM, tags at PSRF_TAG_INIT, NCO corf entries, a valid
configuration (CODE a subset of MEM among its constraints), `pc` even (10_state.md R16 to R18, R23; 20_memory.md R42;
30_encoding.md R59; D18, D19, D26). -/
def Obligations.StepKeepsInvariant : Prop :=
  ∀ s t : State, s.Inv → step s = .next t → t.Inv

/-- Reset meets the invariant, under every valid configuration with an even RESET_PC, the reference one among them. That
memory lists nothing after reset is the model's choice (notes/assumptions/10.md), as is the reference configuration
(notes/assumptions/5.md to 9.md, 11.md, 12.md, 14.md). -/
def Obligations.ResetMeetsInvariant : Prop :=
  State.reset.Inv ∧
  ∀ c : Config, c.Valid → c.resetPc.toNat % 2 = 0 → (State.resetWith c).Inv

/-- After reset `pc` is RESET_PC, `x[0]` is 0, and every psrf tag is PSRF_TAG_INIT, under every configuration; there are
NPS psrf and NCO corf entries (70_reset_and_hazards.md R230, 10_state.md R24; D16, D19, D26). -/
def Obligations.ResetState : Prop :=
  ∀ c : Config, (State.resetWith c).pc = c.resetPc ∧ (State.resetWith c).reg 0#5 = 0#32 ∧
    (State.resetWith c).psrf.map PsrfEntry.tag = c.psrfTagInit ∧
    (State.resetWith c).psrf.length = c.nps ∧ (State.resetWith c).corf.length = c.nco ∧ (State.resetWith c).cfg = c

/-- Over any run, from any state, program text does not change, and neither do the tags or the configuration
(20_memory.md R42, 10_state.md R17; D18, D26). -/
def Obligations.RunKeepsProgramText : Prop :=
  ∀ (n : Nat) (s t : State), Host.Core.run Sys2Proof.core n s = .next t →
    t.cfg = s.cfg ∧ t.psrf.map PsrfEntry.tag = s.psrf.map PsrfEntry.tag ∧
    ∀ b, s.inCode b = true → t.byte b = s.byte b
end

