-- ==== Sys2Proof/Laws/Encoding.lean ====
section
/-! SUPPORT. The fields of an encoded word, form by form, and the word of its fields: R-type, I-type, S-type, B-type and
U-type (spec 30_encoding.md R51 to R56). -/

namespace Sys2Proof

/-- A concatenation as a number. -/
theorem toNat_cat {m n : Nat} (x : BitVec m) (y : BitVec n) : (x ++ y).toNat = x.toNat * 2 ^ n + y.toNat := by
  rw [BitVec.toNat_append, ← Nat.shiftLeft_add_eq_or_of_lt y.isLt, Nat.shiftLeft_eq]

/-- A bit field as a number. -/
theorem toNat_field {m : Nat} (w : BitVec m) (k n : Nat) : (w.extractLsb' k n).toNat = w.toNat / 2 ^ k % 2 ^ n := by
  simp [BitVec.extractLsb'_toNat, Nat.shiftRight_eq_div_pow]

theorem formR_toNat (f7 : BitVec 7) (rs2 rs1 : Reg) (f3 : BitVec 3) (rd : Reg) (op : BitVec 7) :
    (formR f7 rs2 rs1 f3 rd op).toNat =
      f7.toNat * 33554432 + rs2.toNat * 1048576 + rs1.toNat * 32768 + f3.toNat * 4096 + rd.toNat * 128 + op.toNat := by
  change (f7 ++ rs2 ++ rs1 ++ f3 ++ rd ++ op : BitVec (7 + 5 + 5 + 3 + 5 + 7)).toNat = _
  simp only [toNat_cat]
  omega

theorem formI_toNat (imm : BitVec 12) (rs1 : Reg) (f3 : BitVec 3) (rd : Reg) (op : BitVec 7) :
    (formI imm rs1 f3 rd op).toNat =
      imm.toNat * 1048576 + rs1.toNat * 32768 + f3.toNat * 4096 + rd.toNat * 128 + op.toNat := by
  change (imm ++ rs1 ++ f3 ++ rd ++ op : BitVec (12 + 5 + 3 + 5 + 7)).toNat = _
  simp only [toNat_cat]
  omega

theorem formU_toNat (imm : BitVec 20) (rd : Reg) (op : BitVec 7) :
    (formU imm rd op).toNat = imm.toNat * 4096 + rd.toNat * 128 + op.toNat := by
  change (imm ++ rd ++ op : BitVec (20 + 5 + 7)).toNat = _
  simp only [toNat_cat]
  omega

/-- An S-type word is an R-type word whose funct7 and rd fields hold the two parts of the immediate. -/
theorem formS_eq_formR (imm : BitVec 12) (rs2 rs1 : Reg) (f3 : BitVec 3) (op : BitVec 7) :
    formS imm rs2 rs1 f3 op = formR (imm.extractLsb' 5 7) rs2 rs1 f3 (imm.extractLsb' 0 5) op := rfl

/-- A B-type word is an R-type word whose funct7 and rd fields hold the four parts of the offset. -/
theorem formB_eq_formR (imm : BitVec 13) (rs2 rs1 : Reg) (f3 : BitVec 3) (op : BitVec 7) :
    formB imm rs2 rs1 f3 op = formR (imm.extractLsb' 12 1 ++ imm.extractLsb' 5 6 : BitVec (1 + 6)) rs2 rs1 f3
      (imm.extractLsb' 1 4 ++ imm.extractLsb' 11 1 : BitVec (4 + 1)) op := by
  apply BitVec.eq_of_toNat_eq
  rw [formR_toNat]
  change (imm.extractLsb' 12 1 ++ imm.extractLsb' 5 6 ++ rs2 ++ rs1 ++ f3 ++ imm.extractLsb' 1 4 ++
    imm.extractLsb' 11 1 ++ op : BitVec (1 + 6 + 5 + 5 + 3 + 4 + 1 + 7)).toNat = _
  simp only [toNat_cat, toNat_field]
  omega

/-! ### The fields of a form -/

section
variable (f7 : BitVec 7) (rs2 rs1 rd : Reg) (f3 : BitVec 3) (op : BitVec 7) (imm : BitVec 12) (immu : BitVec 20)

theorem fields_formR :
    fOpcode (formR f7 rs2 rs1 f3 rd op) = op ∧ fRd (formR f7 rs2 rs1 f3 rd op) = rd ∧
    fFunct3 (formR f7 rs2 rs1 f3 rd op) = f3 ∧ fRs1 (formR f7 rs2 rs1 f3 rd op) = rs1 ∧
    fRs2 (formR f7 rs2 rs1 f3 rd op) = rs2 ∧ fFunct7 (formR f7 rs2 rs1 f3 rd op) = f7 := by
  have h := formR_toNat f7 rs2 rs1 f3 rd op
  refine ⟨?_, ?_, ?_, ?_, ?_, ?_⟩ <;> apply BitVec.eq_of_toNat_eq <;>
    simp only [fOpcode, fRd, fFunct3, fRs1, fRs2, fFunct7, toNat_field] <;> omega

theorem fields_formI :
    fOpcode (formI imm rs1 f3 rd op) = op ∧ fRd (formI imm rs1 f3 rd op) = rd ∧
    fFunct3 (formI imm rs1 f3 rd op) = f3 ∧ fRs1 (formI imm rs1 f3 rd op) = rs1 ∧
    fImmI (formI imm rs1 f3 rd op) = imm := by
  have h := formI_toNat imm rs1 f3 rd op
  refine ⟨?_, ?_, ?_, ?_, ?_⟩ <;> apply BitVec.eq_of_toNat_eq <;>
    simp only [fOpcode, fRd, fFunct3, fRs1, fImmI, toNat_field] <;> omega

theorem fields_formU :
    fOpcode (formU immu rd op) = op ∧ fRd (formU immu rd op) = rd ∧ fImmU (formU immu rd op) = immu := by
  have h := formU_toNat immu rd op
  refine ⟨?_, ?_, ?_⟩ <;> apply BitVec.eq_of_toNat_eq <;>
    simp only [fOpcode, fRd, fImmU, toNat_field] <;> omega

@[simp] theorem fOpcode_formR : fOpcode (formR f7 rs2 rs1 f3 rd op) = op := (fields_formR f7 rs2 rs1 rd f3 op).1
@[simp] theorem fRd_formR : fRd (formR f7 rs2 rs1 f3 rd op) = rd := (fields_formR f7 rs2 rs1 rd f3 op).2.1
@[simp] theorem fFunct3_formR : fFunct3 (formR f7 rs2 rs1 f3 rd op) = f3 := (fields_formR f7 rs2 rs1 rd f3 op).2.2.1
@[simp] theorem fRs1_formR : fRs1 (formR f7 rs2 rs1 f3 rd op) = rs1 := (fields_formR f7 rs2 rs1 rd f3 op).2.2.2.1
@[simp] theorem fRs2_formR : fRs2 (formR f7 rs2 rs1 f3 rd op) = rs2 := (fields_formR f7 rs2 rs1 rd f3 op).2.2.2.2.1
@[simp] theorem fFunct7_formR : fFunct7 (formR f7 rs2 rs1 f3 rd op) = f7 :=
  (fields_formR f7 rs2 rs1 rd f3 op).2.2.2.2.2

@[simp] theorem fOpcode_formI : fOpcode (formI imm rs1 f3 rd op) = op := (fields_formI rs1 rd f3 op imm).1
@[simp] theorem fRd_formI : fRd (formI imm rs1 f3 rd op) = rd := (fields_formI rs1 rd f3 op imm).2.1
@[simp] theorem fFunct3_formI : fFunct3 (formI imm rs1 f3 rd op) = f3 := (fields_formI rs1 rd f3 op imm).2.2.1
@[simp] theorem fRs1_formI : fRs1 (formI imm rs1 f3 rd op) = rs1 := (fields_formI rs1 rd f3 op imm).2.2.2.1
@[simp] theorem fImmI_formI : fImmI (formI imm rs1 f3 rd op) = imm := (fields_formI rs1 rd f3 op imm).2.2.2.2

@[simp] theorem fOpcode_formU : fOpcode (formU immu rd op) = op := (fields_formU rd op immu).1
@[simp] theorem fRd_formU : fRd (formU immu rd op) = rd := (fields_formU rd op immu).2.1
@[simp] theorem fImmU_formU : fImmU (formU immu rd op) = immu := (fields_formU rd op immu).2.2

@[simp] theorem fOpcode_formS : fOpcode (formS imm rs2 rs1 f3 op) = op := by simp [formS_eq_formR]
@[simp] theorem fFunct3_formS : fFunct3 (formS imm rs2 rs1 f3 op) = f3 := by simp [formS_eq_formR]
@[simp] theorem fRs1_formS : fRs1 (formS imm rs2 rs1 f3 op) = rs1 := by simp [formS_eq_formR]
@[simp] theorem fRs2_formS : fRs2 (formS imm rs2 rs1 f3 op) = rs2 := by simp [formS_eq_formR]
@[simp] theorem fImmS_formS : fImmS (formS imm rs2 rs1 f3 op) = imm := by
  apply BitVec.eq_of_toNat_eq
  unfold fImmS
  simp only [formS_eq_formR, fFunct7_formR, fRd_formR]
  change (imm.extractLsb' 5 7 ++ imm.extractLsb' 0 5 : BitVec (7 + 5)).toNat = _
  simp only [toNat_cat, toNat_field]
  omega
end

section
variable (imm : BitVec 13) (rs2 rs1 : Reg) (f3 : BitVec 3) (op : BitVec 7)

@[simp] theorem fOpcode_formB : fOpcode (formB imm rs2 rs1 f3 op) = op := by simp [formB_eq_formR]
@[simp] theorem fFunct3_formB : fFunct3 (formB imm rs2 rs1 f3 op) = f3 := by simp [formB_eq_formR]
@[simp] theorem fRs1_formB : fRs1 (formB imm rs2 rs1 f3 op) = rs1 := by simp [formB_eq_formR]
@[simp] theorem fRs2_formB : fRs2 (formB imm rs2 rs1 f3 op) = rs2 := by simp [formB_eq_formR]

/-- The number an offset stands for, from the two fields that hold its parts. -/
theorem fImmB_toNat (w : Word) : (fImmB w).toNat =
    (fFunct7 w).toNat / 64 * 4096 + (fRd w).toNat % 2 * 2048 + (fFunct7 w).toNat % 64 * 32 + (fRd w).toNat / 2 * 2 := by
  have h : (fImmB w).toNat = w.toNat / 2147483648 % 2 * 4096 + w.toNat / 128 % 2 * 2048 +
      w.toNat / 33554432 % 64 * 32 + w.toNat / 256 % 16 * 2 := by
    change (w.extractLsb' 31 1 ++ w.extractLsb' 7 1 ++ w.extractLsb' 25 6 ++ w.extractLsb' 8 4 ++ 0#1
      : BitVec (1 + 1 + 6 + 4 + 1)).toNat = _
    simp only [toNat_cat, toNat_field, BitVec.toNat_ofNat, Nat.reducePow, Nat.reduceMod]
    omega
  have h7 : (fFunct7 w).toNat = w.toNat / 33554432 % 128 := toNat_field w 25 7
  have hd : (fRd w).toNat = w.toNat / 128 % 32 := toNat_field w 7 5
  have e1 : w.toNat / 2147483648 = w.toNat / 33554432 / 64 := by rw [Nat.div_div_eq_div_mul]
  have e2 : w.toNat / 256 = w.toNat / 128 / 2 := by rw [Nat.div_div_eq_div_mul]
  rw [h, h7, hd, e1, e2]
  generalize w.toNat / 33554432 = a
  generalize w.toNat / 128 = b
  omega

/-- A decoded offset is even (R59). -/
@[simp] theorem fImmB_even (w : Word) : (fImmB w).getLsbD 0 = false := by
  have h := fImmB_toNat w
  simp only [BitVec.getLsbD, Nat.testBit_zero, decide_eq_false_iff_not]
  omega

/-- An even offset is read back whole. -/
theorem fImmB_formB (h : imm.getLsbD 0 = false) : fImmB (formB imm rs2 rs1 f3 op) = imm := by
  apply BitVec.eq_of_toNat_eq
  have h7 : (fFunct7 (formB imm rs2 rs1 f3 op)).toNat = imm.toNat / 4096 % 2 * 64 + imm.toNat / 32 % 64 := by
    rw [formB_eq_formR, fFunct7_formR, toNat_cat, toNat_field, toNat_field]
    norm_num
  have hd : (fRd (formB imm rs2 rs1 f3 op)).toNat = imm.toNat / 2 % 16 * 2 + imm.toNat / 2048 % 2 := by
    rw [formB_eq_formR, fRd_formR, toNat_cat, toNat_field, toNat_field]
    norm_num
  have hi := imm.isLt
  simp only [BitVec.getLsbD, Nat.testBit_zero, decide_eq_false_iff_not] at h
  rw [fImmB_toNat, h7, hd]
  clear h7 hd
  generalize imm.toNat = n at *
  have e1 : (n / 4096 % 2 * 64 + n / 32 % 64) / 64 = n / 4096 := by omega
  have e2 : (n / 4096 % 2 * 64 + n / 32 % 64) % 64 = n / 32 % 64 := by omega
  have e3 : (n / 2 % 16 * 2 + n / 2048 % 2) % 2 = n / 2048 % 2 := by omega
  have e4 : (n / 2 % 16 * 2 + n / 2048 % 2) / 2 = n / 2 % 16 := by omega
  rw [e1, e2, e3, e4]
  omega
end

/-! ### The word of its fields -/

theorem formR_fields (w : Word) : formR (fFunct7 w) (fRs2 w) (fRs1 w) (fFunct3 w) (fRd w) (fOpcode w) = w := by
  apply BitVec.eq_of_toNat_eq
  rw [formR_toNat]
  simp only [fOpcode, fRd, fFunct3, fRs1, fRs2, fFunct7, toNat_field]
  omega

theorem formI_fields (w : Word) : formI (fImmI w) (fRs1 w) (fFunct3 w) (fRd w) (fOpcode w) = w := by
  apply BitVec.eq_of_toNat_eq
  rw [formI_toNat]
  simp only [fOpcode, fRd, fFunct3, fRs1, fImmI, toNat_field]
  omega

theorem formU_fields (w : Word) : formU (fImmU w) (fRd w) (fOpcode w) = w := by
  apply BitVec.eq_of_toNat_eq
  rw [formU_toNat]
  simp only [fOpcode, fRd, fImmU, toNat_field]
  omega

theorem formS_fields (w : Word) : formS (fImmS w) (fRs2 w) (fRs1 w) (fFunct3 w) (fOpcode w) = w := by
  have hd := (fRd w).isLt
  have himm : (fImmS w).toNat = (fFunct7 w).toNat * 2 ^ 5 + (fRd w).toNat := toNat_cat (fFunct7 w) (fRd w)
  have e7 : (fImmS w).extractLsb' 5 7 = fFunct7 w := by
    apply BitVec.eq_of_toNat_eq
    rw [toNat_field, himm]
    omega
  have e0 : (fImmS w).extractLsb' 0 5 = fRd w := by
    apply BitVec.eq_of_toNat_eq
    rw [toNat_field, himm]
    omega
  rw [formS_eq_formR, e7, e0, formR_fields]

theorem formB_fields (w : Word) : formB (fImmB w) (fRs2 w) (fRs1 w) (fFunct3 w) (fOpcode w) = w := by
  have hx := (fFunct7 w).isLt
  have hv := (fRd w).isLt
  have hn : (fImmB w).toNat = 4096 * ((fFunct7 w).toNat / 64) + 2048 * ((fRd w).toNat % 2) +
      32 * ((fFunct7 w).toNat % 64) + 2 * ((fRd w).toNat / 2) := by rw [fImmB_toNat]; ring
  have ha := Nat.div_add_mod (fFunct7 w).toNat 64
  have hb := Nat.div_add_mod (fRd w).toNat 2
  have hy := Nat.mod_lt (fFunct7 w).toNat (show 0 < 64 by decide)
  have hu := Nat.mod_lt (fRd w).toNat (show 0 < 2 by decide)
  generalize hn' : (fImmB w).toNat = n at hn
  have e7 : ((fImmB w).extractLsb' 12 1 ++ (fImmB w).extractLsb' 5 6 : BitVec (1 + 6)) = fFunct7 w := by
    apply BitVec.eq_of_toNat_eq
    rw [toNat_cat, toNat_field, toNat_field, hn', ← ha]
    generalize (fFunct7 w).toNat / 64 = x at *
    generalize (fFunct7 w).toNat % 64 = y at *
    generalize (fRd w).toNat / 2 = v at *
    generalize (fRd w).toNat % 2 = u at *
    have h1 : n / 2 ^ 12 = x := by omega
    have h3 : n / 2 ^ 5 = 128 * x + 64 * u + y := by omega
    have h2 : n / 2 ^ 5 % 2 ^ 6 = y := by rw [h3]; omega
    rw [h1, h2]; omega
  have ed : ((fImmB w).extractLsb' 1 4 ++ (fImmB w).extractLsb' 11 1 : BitVec (4 + 1)) = fRd w := by
    apply BitVec.eq_of_toNat_eq
    rw [toNat_cat, toNat_field, toNat_field, hn', ← hb]
    generalize (fFunct7 w).toNat / 64 = x at *
    generalize (fFunct7 w).toNat % 64 = y at *
    generalize (fRd w).toNat / 2 = v at *
    generalize (fRd w).toNat % 2 = u at *
    have h1 : n / 2 ^ 1 % 2 ^ 4 = v := by omega
    have h3 : n / 2 ^ 11 = 2 * x + u := by omega
    have h2 : n / 2 ^ 11 % 2 ^ 1 = u := by rw [h3]; omega
    rw [h1, h2]; omega
  rw [formB_eq_formR, e7, ed, formR_fields]

/-- Four bytes of a word, highest first, are the word (R31). -/
theorem bytes_word (w : Word) :
    (w.extractLsb' 24 8 ++ w.extractLsb' 16 8 ++ w.extractLsb' 8 8 ++ w.extractLsb' 0 8 : BitVec (8 + 8 + 8 + 8)) = w := by
  apply BitVec.eq_of_toNat_eq
  simp only [toNat_cat, toNat_field]
  omega

end Sys2Proof
end

