-- ==== Sys2Proof/Laws/Memory.lean ====
section
/-! SUPPORT. Memory: a read gives what was last written, other addresses keep their byte, and every operation keeps the
canonical form `Memory.wf`. -/

namespace Sys2Proof.Machine

/-- No cell of the list has this address. -/
abbrev Memory.absent (m : Memory) (a : Nat) : Prop := ∀ c ∈ m, c.1 ≠ a

theorem Memory.byteAt_absent (m : Memory) (a : Nat) (h : m.absent a) : m.byteAt a = unlistedByte := by
  induction m with
  | nil => rfl
  | cons c m ih =>
    obtain ⟨k, b⟩ := c
    have hk : k ≠ a := h (k, b) (by simp)
    simp only [Memory.byteAt, hk, if_false]
    exact ih fun d hd => h d (by simp [hd])

theorem Memory.absent_without (m : Memory) (a : Nat) : (m.without a).absent a := by
  intro c hc
  simp only [Memory.without, List.mem_filter, bne_iff_ne, ne_eq] at hc
  exact hc.2

theorem Memory.byteAt_without_ne (m : Memory) {a b : Nat} (h : a ≠ b) : (m.without a).byteAt b = m.byteAt b := by
  induction m with
  | nil => rfl
  | cons c m ih =>
    obtain ⟨k, v⟩ := c
    by_cases hk : k = a
    · subst hk
      simpa [Memory.without, Memory.byteAt, h] using ih
    · have : Memory.without ((k, v) :: m) a = (k, v) :: Memory.without m a := by simp [Memory.without, hk]
      simp [this, Memory.byteAt, ih]

theorem Memory.byteAt_place (m : Memory) (a b : Nat) (v : Byte) (h : m.absent a) :
    (m.place a v).byteAt b = if a = b then v else m.byteAt b := by
  induction m with
  | nil => simp [Memory.place, Memory.byteAt]
  | cons c m ih =>
    obtain ⟨k, x⟩ := c
    have hk : k ≠ a := h (k, x) (by simp)
    have ih := ih fun d hd => h d (by simp [hd])
    by_cases hlt : a < k
    · simp [Memory.place, hlt, Memory.byteAt]
    · simp only [Memory.place, hlt, if_false, Memory.byteAt, ih]
      by_cases hab : a = b
      · subst hab; simp [hk]
      · simp [hab]

/-- A read after a write: the byte written at its address, the old byte everywhere else. It holds of every list. -/
theorem Memory.byteAt_setByte (m : Memory) (a b : Nat) (v : Byte) :
    (m.setByte a v).byteAt b = if a = b then v else m.byteAt b := by
  unfold Memory.setByte
  split
  · next hv =>
    split
    · next hab => subst hab; rw [Memory.byteAt_absent _ _ (m.absent_without a), hv]
    · next hab => exact m.byteAt_without_ne hab
  · rw [Memory.byteAt_place _ _ _ _ (m.absent_without a)]
    split
    · rfl
    · next hab => exact m.byteAt_without_ne hab

/-! ### The canonical form -/

theorem Memory.wf_iff (m : Memory) :
    m.wf = true ↔ m.Pairwise (fun c d => c.1 < d.1) ∧ ∀ c ∈ m, c.1 < 4294967296 ∧ c.2 ≠ unlistedByte := by
  simp [Memory.wf, List.all_eq_true]

theorem Memory.mem_place (m : Memory) (a : Nat) (v : Byte) (c : Host.Cell) :
    c ∈ m.place a v ↔ c = (a, v) ∨ c ∈ m := by
  induction m with
  | nil => simp [Memory.place]
  | cons d m ih =>
    obtain ⟨k, x⟩ := d
    by_cases hlt : a < k
    · simp [Memory.place, hlt]
    · simp only [Memory.place, hlt, if_false, List.mem_cons, ih]
      tauto

theorem Memory.pairwise_place (m : Memory) (a : Nat) (v : Byte) (h : m.absent a)
    (hm : m.Pairwise fun c d => c.1 < d.1) : (m.place a v).Pairwise fun c d => c.1 < d.1 := by
  induction m with
  | nil => simp [Memory.place]
  | cons d m ih =>
    obtain ⟨k, x⟩ := d
    have hk : k ≠ a := h (k, x) (by simp)
    obtain ⟨hd, hm⟩ := List.pairwise_cons.1 hm
    by_cases hlt : a < k
    · simp only [Memory.place, hlt, if_true, List.pairwise_cons]
      refine ⟨fun c hc => ?_, hd, hm⟩
      rcases List.mem_cons.1 hc with rfl | hc
      · exact hlt
      · exact Nat.lt_trans hlt (hd c hc)
    · simp only [Memory.place, hlt, if_false, List.pairwise_cons]
      refine ⟨fun c hc => ?_, ih (fun c hc => h c (by simp [hc])) hm⟩
      rcases (Memory.mem_place m a v c).1 hc with rfl | hc
      · show k < a; omega
      · exact hd c hc

theorem Memory.wf_setByte (m : Memory) (a : Nat) (v : Byte) (ha : a < 4294967296) (h : m.wf = true) :
    (m.setByte a v).wf = true := by
  rw [Memory.wf_iff] at h ⊢
  have he : (m.without a).Pairwise fun c d => c.1 < d.1 := h.1.filter _
  have hmem : ∀ c ∈ m.without a, c ∈ m := fun c hc => (List.mem_filter.1 hc).1
  unfold Memory.setByte
  split
  · exact ⟨he, fun c hc => h.2 c (hmem c hc)⟩
  · next hv =>
    refine ⟨Memory.pairwise_place _ _ _ (m.absent_without a) he, fun c hc => ?_⟩
    rcases (Memory.mem_place _ _ _ _).1 hc with rfl | hc
    · exact ⟨ha, hv⟩
    · exact h.2 c (hmem c hc)

/-- A cell of the memory after a write is one of the cells before, or at the address written. -/
theorem Memory.mem_setByte (m : Memory) (a : Nat) (v : Byte) (c : Host.Cell) (hc : c ∈ m.setByte a v) :
    c.1 = a ∨ c ∈ m := by
  unfold Memory.setByte at hc
  split at hc
  · exact .inr (List.mem_filter.1 hc).1
  · rcases (Memory.mem_place _ _ _ _).1 hc with rfl | hc
    · exact .inl rfl
    · exact .inr (List.mem_filter.1 hc).1

/-- The memory after reset lists nothing, so it is in canonical form. -/
theorem State.resetWith_mem_wf (c : Config) : (State.resetWith c).mem.wf = true := rfl

/-! ### Wide writes and reads -/

@[simp] theorem Memory.writeBytes_zero {w : Nat} (m : Memory) (a : Word) (v : BitVec w) :
    m.writeBytes a v 0 = m := rfl

theorem Memory.writeBytes_succ {w : Nat} (m : Memory) (a : Word) (v : BitVec w) (n : Nat) :
    m.writeBytes a v (n + 1) =
      (m.writeBytes a v n).setByte (a + BitVec.ofNat 32 n).toNat (valueByte v n) := rfl

theorem Memory.wf_writeBytes {w : Nat} (m : Memory) (a : Word) (v : BitVec w) (n : Nat) (h : m.wf = true) :
    (m.writeBytes a v n).wf = true := by
  induction n with
  | zero => exact h
  | succ n ih => exact Memory.wf_setByte _ _ _ (BitVec.isLt _) ih

/-- Bytes outside the addresses of a wide write keep their value. -/
theorem Memory.byteAt_writeBytes_outside {w : Nat} (m : Memory) (a : Word) (v : BitVec w) (n : Nat) (b : Word)
    (h : b ∉ accessed a n) : (m.writeBytes a v n).byteAt b.toNat = m.byteAt b.toNat := by
  induction n with
  | zero => rfl
  | succ n ih =>
    have hn : b ∉ accessed a n := fun hb => h (by
      simp only [accessed, List.mem_map, List.mem_range] at hb ⊢
      obtain ⟨k, hk, rfl⟩ := hb
      exact ⟨k, by omega, rfl⟩)
    have hb : ¬ (a + BitVec.ofNat 32 n).toNat = b.toNat := fun e => h (by
      simp only [accessed, List.mem_map, List.mem_range]
      exact ⟨n, by omega, BitVec.eq_of_toNat_eq e⟩)
    rw [Memory.writeBytes_succ, Memory.byteAt_setByte, if_neg hb, ih hn]

/-- Byte `k` of a wide write reads as byte `k` of the value (an access is far shorter than the address space). -/
theorem Memory.byteAt_writeBytes_inside {w : Nat} (m : Memory) (a : Word) (v : BitVec w) (n k : Nat) (hk : k < n)
    (hn : n ≤ 4294967296) : (m.writeBytes a v n).byteAt (a + BitVec.ofNat 32 k).toNat = valueByte v k := by
  induction n with
  | zero => omega
  | succ n ih =>
    rw [Memory.writeBytes_succ, Memory.byteAt_setByte]
    by_cases hkn : k = n
    · subst hkn; simp
    · have hne : ¬ (a + BitVec.ofNat 32 n).toNat = (a + BitVec.ofNat 32 k).toNat := by
        have := a.isLt
        simp only [BitVec.toNat_add, BitVec.toNat_ofNat]
        omega
      rw [if_neg hne, ih (by omega) (by omega)]

/-- A cell of the memory after a wide write is one of the cells before, or at an address of the write. -/
theorem Memory.mem_writeBytes {w : Nat} (m : Memory) (a : Word) (v : BitVec w) (n : Nat) (c : Host.Cell)
    (hc : c ∈ m.writeBytes a v n) : (∃ b ∈ accessed a n, c.1 = b.toNat) ∨ c ∈ m := by
  induction n with
  | zero => exact .inr hc
  | succ n ih =>
    rcases Memory.mem_setByte _ _ _ _ hc with h | h
    · exact .inl ⟨a + BitVec.ofNat 32 n, List.mem_map.2 ⟨n, by simp, rfl⟩, h⟩
    · rcases ih h with ⟨b, hb, e⟩ | h
      · refine .inl ⟨b, ?_, e⟩
        obtain ⟨k, hk, rfl⟩ := List.mem_map.1 hb
        exact List.mem_map.2 ⟨k, by simp at hk ⊢; omega, rfl⟩
      · exact .inr h

theorem Memory.readBytes_one (m : Memory) (a : Word) : m.readBytes a 1 = m.byteAt a.toNat :=
  BitVec.eq_of_toNat_eq ((BitVec.toNat_append 0#0 (m.byteAt a.toNat)).trans (by simp))

theorem Memory.readBytes_two (m : Memory) (a : Word) :
    m.readBytes a 2 = (m.byteAt (a + 1#32).toNat ++ m.byteAt a.toNat : BitVec (8 + 8)) :=
  congrArg (fun x : BitVec 8 => x ++ m.byteAt a.toNat) (Memory.readBytes_one m (a + 1#32))

theorem Memory.readBytes_four (m : Memory) (a : Word) :
    m.readBytes a 4 = (m.byteAt (a + 3#32).toNat ++ m.byteAt (a + 2#32).toNat ++ m.byteAt (a + 1#32).toNat ++
      m.byteAt a.toNat : BitVec (8 + 8 + 8 + 8)) := by
  have h2 : a + 1#32 + 1#32 = a + 2#32 := by rw [BitVec.add_assoc]; rfl
  have h3 : a + 1#32 + 1#32 + 1#32 = a + 3#32 := by rw [h2, BitVec.add_assoc]; rfl
  rw [← h3, ← h2]
  exact congrArg (fun x : BitVec (8 + 8) => x ++ m.byteAt (a + 1#32).toNat ++ m.byteAt a.toNat)
    (Memory.readBytes_two m (a + 1#32 + 1#32))

theorem accessed_one (a : Word) : accessed a 1 = [a] := by simp [accessed]
theorem accessed_two (a : Word) : accessed a 2 = [a, a + 1#32] := by simp [accessed, List.range_succ]
theorem accessed_four (a : Word) : accessed a 4 = [a, a + 1#32, a + 2#32, a + 3#32] := by
  simp [accessed, List.range_succ]

end Sys2Proof.Machine
end

