-- ==== Sys2Proof/Laws/State.lean ====
section
/-! SUPPORT. What each update of the state leaves in each field, and what a register reads after it. -/

namespace Sys2Proof.Machine

/-! ### `advance` and `jump` write `pc` alone -/

@[simp] theorem State.advance_pc (s : State) : s.advance.pc = s.pc + 4#32 := rfl
@[simp] theorem State.advance_regs (s : State) : s.advance.regs = s.regs := rfl
@[simp] theorem State.advance_psrf (s : State) : s.advance.psrf = s.psrf := rfl
@[simp] theorem State.advance_corf (s : State) : s.advance.corf = s.corf := rfl
@[simp] theorem State.advance_mem (s : State) : s.advance.mem = s.mem := rfl
@[simp] theorem State.advance_cfg (s : State) : s.advance.cfg = s.cfg := rfl
@[simp] theorem State.reg_advance (s : State) (r : Reg) : s.advance.reg r = s.reg r := rfl

@[simp] theorem State.jump_pc (s : State) (t : Word) : (s.jump t).pc = t := rfl
@[simp] theorem State.jump_regs (s : State) (t : Word) : (s.jump t).regs = s.regs := rfl
@[simp] theorem State.jump_psrf (s : State) (t : Word) : (s.jump t).psrf = s.psrf := rfl
@[simp] theorem State.jump_corf (s : State) (t : Word) : (s.jump t).corf = s.corf := rfl
@[simp] theorem State.jump_mem (s : State) (t : Word) : (s.jump t).mem = s.mem := rfl
@[simp] theorem State.jump_cfg (s : State) (t : Word) : (s.jump t).cfg = s.cfg := rfl
@[simp] theorem State.reg_jump (s : State) (t : Word) (r : Reg) : (s.jump t).reg r = s.reg r := rfl

/-! ### `setReg` writes a register alone -/

@[simp] theorem State.setReg_pc (s : State) (r : Reg) (v : Word) : (s.setReg r v).pc = s.pc := by
  unfold State.setReg; split <;> rfl
@[simp] theorem State.setReg_psrf (s : State) (r : Reg) (v : Word) : (s.setReg r v).psrf = s.psrf := by
  unfold State.setReg; split <;> rfl
@[simp] theorem State.setReg_corf (s : State) (r : Reg) (v : Word) : (s.setReg r v).corf = s.corf := by
  unfold State.setReg; split <;> rfl
@[simp] theorem State.setReg_mem (s : State) (r : Reg) (v : Word) : (s.setReg r v).mem = s.mem := by
  unfold State.setReg; split <;> rfl
@[simp] theorem State.setReg_cfg (s : State) (r : Reg) (v : Word) : (s.setReg r v).cfg = s.cfg := by
  unfold State.setReg; split <;> rfl

@[simp] theorem State.reg_zero (s : State) : s.reg 0#5 = 0#32 := rfl

/-- A register reads what was last written to it; `x[0]` stays 0 (R11). -/
theorem State.reg_setReg (s : State) (r q : Reg) (v : Word) :
    (s.setReg r v).reg q = if q = r ∧ r ≠ 0#5 then v else s.reg q := by
  by_cases hr : r = 0#5
  · simp [State.setReg, hr]
  · by_cases hq : q = 0#5
    · subst hq; simp [State.reg, Ne.symm hr]
    · have hr' : r.toNat ≠ 0 := fun h => hr (BitVec.eq_of_toNat_eq (by simpa using h))
      have hq' : q.toNat ≠ 0 := fun h => hq (BitVec.eq_of_toNat_eq (by simpa using h))
      have hqr : (r.toNat - 1 = q.toNat - 1) ↔ q = r :=
        ⟨fun h => BitVec.eq_of_toNat_eq (by omega), fun h => by rw [h]⟩
      simp [State.setReg, State.reg, hr, hq, Vector.getElem_set, hqr]

/-! ### Updates of the psrf and the corf -/

@[simp] theorem State.setPsVal_pc (s : State) (i : Nat) (v : Word) : (s.setPsVal i v).pc = s.pc := rfl
@[simp] theorem State.setPsVal_regs (s : State) (i : Nat) (v : Word) : (s.setPsVal i v).regs = s.regs := rfl
@[simp] theorem State.setPsVal_corf (s : State) (i : Nat) (v : Word) : (s.setPsVal i v).corf = s.corf := rfl
@[simp] theorem State.setPsVal_mem (s : State) (i : Nat) (v : Word) : (s.setPsVal i v).mem = s.mem := rfl
@[simp] theorem State.setPsVal_cfg (s : State) (i : Nat) (v : Word) : (s.setPsVal i v).cfg = s.cfg := rfl
@[simp] theorem State.reg_setPsVal (s : State) (i : Nat) (v : Word) (r : Reg) :
    (s.setPsVal i v).reg r = s.reg r := rfl
theorem State.setPsVal_getElem? (s : State) (i j : Nat) (v : Word) :
    (s.setPsVal i v).psrf[j]? = s.psrf[j]?.map fun e => if i = j then { e with val := v } else e := by
  simp only [State.setPsVal, List.getElem?_modify]
  split <;> simp

@[simp] theorem State.setCo_pc (s : State) (i : Nat) (v : Word) : (s.setCo i v).pc = s.pc := rfl
@[simp] theorem State.setCo_regs (s : State) (i : Nat) (v : Word) : (s.setCo i v).regs = s.regs := rfl
@[simp] theorem State.setCo_psrf (s : State) (i : Nat) (v : Word) : (s.setCo i v).psrf = s.psrf := rfl
@[simp] theorem State.setCo_mem (s : State) (i : Nat) (v : Word) : (s.setCo i v).mem = s.mem := rfl
@[simp] theorem State.setCo_cfg (s : State) (i : Nat) (v : Word) : (s.setCo i v).cfg = s.cfg := rfl
@[simp] theorem State.reg_setCo (s : State) (i : Nat) (v : Word) (r : Reg) : (s.setCo i v).reg r = s.reg r := rfl
@[simp] theorem State.setCo_nco (s : State) (i : Nat) (v : Word) : (s.setCo i v).nco = s.nco := by
  simp [State.nco, State.setCo]
theorem State.setCo_getElem? (s : State) (i j : Nat) (v : Word) (h : i < s.nco) :
    (s.setCo i v).corf[j]? = if i = j then some v else s.corf[j]? := by
  have h' : i < s.corf.length := h
  by_cases hij : i = j
  · subst hij; simp [State.setCo, h']
  · simp [State.setCo, hij]

@[simp] theorem State.updateTagged_pc (s : State) (t : Reg) (f : Nat → Word → Word) :
    (s.updateTagged t f).pc = s.pc := rfl
@[simp] theorem State.updateTagged_regs (s : State) (t : Reg) (f : Nat → Word → Word) :
    (s.updateTagged t f).regs = s.regs := rfl
@[simp] theorem State.updateTagged_corf (s : State) (t : Reg) (f : Nat → Word → Word) :
    (s.updateTagged t f).corf = s.corf := rfl
@[simp] theorem State.updateTagged_mem (s : State) (t : Reg) (f : Nat → Word → Word) :
    (s.updateTagged t f).mem = s.mem := rfl
@[simp] theorem State.updateTagged_cfg (s : State) (t : Reg) (f : Nat → Word → Word) :
    (s.updateTagged t f).cfg = s.cfg := rfl
@[simp] theorem State.reg_updateTagged (s : State) (t : Reg) (f : Nat → Word → Word) (r : Reg) :
    (s.updateTagged t f).reg r = s.reg r := rfl
theorem State.updateTagged_getElem? (s : State) (t : Reg) (f : Nat → Word → Word) (i : Nat) :
    (s.updateTagged t f).psrf[i]? =
      s.psrf[i]?.map fun e => if e.tag = t then { e with val := f i e.val } else e := by
  simp [State.updateTagged, List.getElem?_mapIdx]

/-! ### No update changes a psrf tag or the length of a file -/

@[simp] theorem State.setPsVal_tags (s : State) (i : Nat) (v : Word) :
    (s.setPsVal i v).psrf.map PsrfEntry.tag = s.psrf.map PsrfEntry.tag := by
  apply List.ext_getElem?
  intro j
  simp only [List.getElem?_map, State.setPsVal_getElem?]
  cases s.psrf[j]? <;> simp
  split <;> rfl

@[simp] theorem State.updateTagged_tags (s : State) (t : Reg) (f : Nat → Word → Word) :
    (s.updateTagged t f).psrf.map PsrfEntry.tag = s.psrf.map PsrfEntry.tag := by
  apply List.ext_getElem?
  intro j
  simp only [List.getElem?_map, State.updateTagged_getElem?]
  cases s.psrf[j]? <;> simp
  split <;> rfl

@[simp] theorem State.setPsVal_nps (s : State) (i : Nat) (v : Word) : (s.setPsVal i v).nps = s.nps := by
  simp [State.nps, State.setPsVal]
@[simp] theorem State.updateTagged_nps (s : State) (t : Reg) (f : Nat → Word → Word) :
    (s.updateTagged t f).nps = s.nps := by
  simp [State.nps, State.updateTagged]

/-! ### `branch` writes `pc`, or clears psrf values and advances (R164) -/

theorem State.branch_taken (s : State) (t : Reg) (imm : BitVec 13) : s.branch true t imm =
    s.jump (s.pc + immB imm) := rfl
theorem State.branch_not_taken (s : State) (t : Reg) (imm : BitVec 13) :
    s.branch false t imm = (s.updateTagged t fun _ _ => 0#32).advance := rfl
@[simp] theorem State.branch_regs (s : State) (b : Bool) (t : Reg) (imm : BitVec 13) :
    (s.branch b t imm).regs = s.regs := by
  cases b <;> rfl
@[simp] theorem State.branch_corf (s : State) (b : Bool) (t : Reg) (imm : BitVec 13) :
    (s.branch b t imm).corf = s.corf := by
  cases b <;> rfl
@[simp] theorem State.branch_mem (s : State) (b : Bool) (t : Reg) (imm : BitVec 13) :
    (s.branch b t imm).mem = s.mem := by
  cases b <;> rfl
@[simp] theorem State.branch_cfg (s : State) (b : Bool) (t : Reg) (imm : BitVec 13) :
    (s.branch b t imm).cfg = s.cfg := by
  cases b <;> rfl
@[simp] theorem State.reg_branch (s : State) (b : Bool) (t : Reg) (imm : BitVec 13) (r : Reg) :
    (s.branch b t imm).reg r = s.reg r := by
  cases b <;> rfl

/-- The tag selection of a psrf.branch depends on the configuration alone. -/
theorem State.branchTag_congr {s t : State} (h : t.cfg = s.cfg) (rs1 rs2 : Reg) :
    t.branchTag rs1 rs2 = s.branchTag rs1 rs2 := by
  unfold State.branchTag
  rw [h]

/-! ### `withMem`-style updates: a state that differs in memory alone -/

@[simp] theorem State.reg_mem (s : State) (m : Memory) (r : Reg) : State.reg { s with mem := m } r = s.reg r := rfl

end Sys2Proof.Machine
end

