-- ==== Sys2Proof/Laws/Ops.lean ====
section
/-! SUPPORT. One spec lemma per shared operation: when an access is admitted, what a load and a store then answer, and
what each answers otherwise. -/

namespace Sys2Proof.Machine

/-- Nothing stops an access exactly when it is aligned and lies in MEM (R33). -/
theorem State.accessCheck_eq_none (s : State) (a : Word) (n : Nat) :
    s.accessCheck a n = none ↔ a.toNat % n = 0 ∧ ∀ b ∈ accessed a n, s.inMem b = true := by
  unfold State.accessCheck
  split
  · next h => simp [h]
  · next h =>
    have h : a.toNat % n = 0 := by simpa using h
    split
    · next hm => simpa [h] using hm
    · next hm => simpa [h] using hm

/-- An access that is stopped is stopped by `MisalignedAccess` or else `AccessFault` (R202). -/
theorem State.accessCheck_eq_some (s : State) (a : Word) (n : Nat) (f : Fault) :
    s.accessCheck a n = some f ↔
      (a.toNat % n ≠ 0 ∧ f = .misalignedAccess a n s.pc) ∨
      (a.toNat % n = 0 ∧ (∃ b ∈ accessed a n, s.inMem b = false) ∧ f = .accessFault a n s.pc) := by
  unfold State.accessCheck
  split
  · next h => simpa [h] using eq_comm
  · next h =>
    have h : a.toNat % n = 0 := by simpa using h
    split
    · next hm =>
      have hm : ∀ b ∈ accessed a n, s.inMem b = true := by simpa using hm
      simp only [h, reduceCtorEq, ne_eq, not_true_eq_false, false_and, true_and, false_or, false_iff]
      rintro ⟨⟨b, hb, hf⟩, -⟩
      simp [hm b hb] at hf
    · next hm =>
      have hm : ∃ b ∈ accessed a n, s.inMem b = false := by simpa using hm
      simpa [h, hm] using eq_comm

/-- The predicates on bytes, as regions of the configuration (R38, R42). -/
theorem inRegions_iff (rs : List Region) (a : Word) :
    inRegions rs a = true ↔ ∃ r ∈ rs, r.base ≤ a.toNat ∧ a.toNat < r.base + r.size := by
  simp [inRegions]

/-- Under a valid configuration program text is memory (R42). -/
theorem State.inMem_of_inCode {s : State} (h : s.cfg.Valid) {a : Word} (ha : s.inCode a = true) : s.inMem a = true :=
  (inRegions_iff _ a).2 (h.2.2 a ((inRegions_iff _ a).1 ha))

/-- Everything a load that goes on does. -/
theorem State.load_eq_next (s t : State) (rd : Reg) (a : Word) (n : Nat) (ext : BitVec (8 * n) → Word) :
    s.load rd a n ext = .next t ↔
      s.accessCheck a n = none ∧ t = (s.setReg rd (ext (s.mem.readBytes a n))).advance := by
  unfold State.load State.memRead State.finishReg
  cases h : s.accessCheck a n
  · simpa using eq_comm
  · simp

theorem State.load_of_admitted (s : State) (rd : Reg) (a : Word) (n : Nat) (ext : BitVec (8 * n) → Word)
    (h : s.accessCheck a n = none) :
    s.load rd a n ext = .next (s.setReg rd (ext (s.mem.readBytes a n))).advance :=
  (s.load_eq_next _ rd a n ext).2 ⟨h, rfl⟩

theorem State.load_of_stopped (s : State) (rd : Reg) (a : Word) (n : Nat) (ext : BitVec (8 * n) → Word) (f : Fault)
    (h : s.accessCheck a n = some f) : s.load rd a n ext = .fault f := by
  unfold State.load State.memRead
  rw [h]

/-- Everything a store that goes on does. -/
theorem State.store_eq_next {w : Nat} (s t : State) (a : Word) (n : Nat) (v : BitVec w) :
    s.store a n v = .next t ↔
      s.accessCheck a n = none ∧ (∀ b ∈ accessed a n, s.inCode b = false) ∧
        t = State.advance { s with mem := s.mem.writeBytes a v n } := by
  unfold State.store State.memWrite
  cases h : s.accessCheck a n with
  | some f => simp
  | none =>
    by_cases hc : (accessed a n).any s.inCode
    · have hc' : ∃ b ∈ accessed a n, s.inCode b = true := by simpa using hc
      obtain ⟨b, hb, hcb⟩ := hc'
      simp only [hc, if_true, true_and, reduceCtorEq, false_iff]
      rintro ⟨h, -⟩
      simp [h b hb] at hcb
    · have hc' : ∀ b ∈ accessed a n, s.inCode b = false := by simpa using hc
      simp only [hc, Bool.false_eq_true, if_false, true_and, Host.Outcome.next.injEq]
      exact ⟨fun e => ⟨hc', e.symm⟩, fun e => e.2.symm⟩

theorem State.store_of_admitted {w : Nat} (s : State) (a : Word) (n : Nat) (v : BitVec w)
    (h : s.accessCheck a n = none) (hc : ∀ b ∈ accessed a n, s.inCode b = false) :
    s.store a n v = .next (State.advance { s with mem := s.mem.writeBytes a v n }) :=
  (s.store_eq_next _ a n v).2 ⟨h, hc, rfl⟩

theorem State.store_of_stopped {w : Nat} (s : State) (a : Word) (n : Nat) (v : BitVec w) (f : Fault)
    (h : s.accessCheck a n = some f) : s.store a n v = .fault f := by
  unfold State.store State.memWrite
  rw [h]

theorem State.store_of_code {w : Nat} (s : State) (a : Word) (n : Nat) (v : BitVec w)
    (h : s.accessCheck a n = none) (hc : ∃ b ∈ accessed a n, s.inCode b = true) :
    s.store a n v = .fault (.storeToCode a s.pc) := by
  have hc : (accessed a n).any s.inCode = true := by simpa using hc
  unfold State.store State.memWrite
  rw [h]
  simp [hc]

/-- No operation answers a refusal. -/
theorem State.load_ne_refused (s : State) (rd : Reg) (a : Word) (n : Nat) (ext : BitVec (8 * n) → Word) (r : Refusal) :
    s.load rd a n ext ≠ .refused r := by
  unfold State.load State.memRead State.finishReg
  cases s.accessCheck a n <;> simp

theorem State.store_ne_refused {w : Nat} (s : State) (a : Word) (n : Nat) (v : BitVec w) (r : Refusal) :
    s.store a n v ≠ .refused r := by
  unfold State.store State.memWrite
  cases s.accessCheck a n with
  | some f => simp
  | none => simp only; split <;> simp

/-- `finishReg` writes one register and moves `pc` past the instruction. -/
theorem State.regResult_setReg (s : State) (rd : Reg) (v : Word) : RegResult s (s.setReg rd v).advance rd v := by
  refine ⟨fun h => ?_, fun h => ?_, fun r hr => ?_, ?_⟩
  · simp [State.reg_setReg, h]
  · subst h; simp
  · simp [State.reg_setReg, hr]
  · simp [SameBytes, State.byte]

end Sys2Proof.Machine
end

