-- ==== Sys2Proof/Laws/Exec.lean ====
section
/-! SUPPORT. Everything that executing an instruction can answer: the six shapes of a next state. The rules about the
whole machine follow from this one lemma. -/

namespace Sys2Proof.Machine

/-- The shapes of a next state: one register written (arithmetic and loads); bytes stored; `psrf.addi`; `psrf.branch`;
one corf entry written; one psrf value written. -/
inductive Shape (i : Instr) (s t : State) : Prop where
  | reg (rd : Reg) (v : Word) (hd : destOf i = some rd) (hp : writesPsrf i = false) (hc : writesCorf i = false)
      (hs : ∀ acc, accessOf s i = some acc → acc.isStore = false) (ht : t = (s.setReg rd v).advance)
  | store (a : Word) (n : Nat) (w : Nat) (v : BitVec w) (hd : destOf i = none) (hp : writesPsrf i = false)
      (hc : writesCorf i = false) (ha : accessOf s i = some ⟨a, n, true⟩) (hm : ∀ b ∈ accessed a n, s.inMem b = true)
      (hx : ∀ b ∈ accessed a n, s.inCode b = false) (ht : t = State.advance { s with mem := s.mem.writeBytes a v n })
  | stepTagged (d : Reg) (imm : BitVec 12) (hi : i = .psrfAddi d imm)
      (ht : t = ((s.setReg d (s.reg d + imm12 imm)).updateTagged d fun k v => v + s.co k).advance)
  | branch (rs1 rs2 : Reg) (imm : BitVec 13) (hi : i = .psrfBranch rs1 rs2 imm)
      (ht : t = s.branch (Config.psrfBranchCond (s.reg rs1) (s.reg rs2)) (s.branchTag rs1 rs2) imm)
  | corf (k : Nat) (v : Word) (hd : destOf i = none) (hp : writesPsrf i = false) (hc : writesCorf i = true)
      (ha : accessOf s i = none) (hk : k < s.nco) (ht : t = (s.setCo k v).advance)
  | psrf (k : Nat) (v : Word) (hd : destOf i = none) (hp : writesPsrf i = true) (hc : writesCorf i = false)
      (ha : accessOf s i = none) (hk : k < s.nps) (ht : t = (s.setPsVal k v).advance)

theorem shape_finishReg {i : Instr} {s t : State} {rd : Reg} {v : Word} (h : s.finishReg rd v = .next t)
    (hd : destOf i = some rd) (hp : writesPsrf i = false) (hc : writesCorf i = false) (ha : accessOf s i = none) :
    Shape i s t :=
  .reg rd v hd hp hc (by simp [ha]) (by simpa [State.finishReg] using h.symm)

theorem shape_load {i : Instr} {s t : State} {rd : Reg} {a : Word} {n : Nat} {ext : BitVec (8 * n) → Word}
    (h : s.load rd a n ext = .next t) (hd : destOf i = some rd) (hp : writesPsrf i = false)
    (hc : writesCorf i = false) (ha : accessOf s i = some ⟨a, n, false⟩) : Shape i s t :=
  .reg rd _ hd hp hc (fun acc e => by rw [ha] at e; cases e; rfl) ((s.load_eq_next t rd a n ext).1 h).2

theorem shape_store {i : Instr} {s t : State} {w : Nat} {a : Word} {n : Nat} {v : BitVec w}
    (h : s.store a n v = .next t) (hd : destOf i = none) (hp : writesPsrf i = false)
    (hc : writesCorf i = false) (ha : accessOf s i = some ⟨a, n, true⟩) : Shape i s t := by
  obtain ⟨hok, hx, ht⟩ := (s.store_eq_next t a n v).1 h
  exact .store a n w v hd hp hc ha ((s.accessCheck_eq_none a n).1 hok).2 hx ht

/-- Whatever instruction answers a next state, that state is of one of the six shapes. -/
theorem exec_shape {i : Instr} {s t : State} (h : exec i s = .next t) : Shape i s t := by
  cases i with
  | psrfLw rd rs1 var =>
    simp only [exec, execPsrfLw] at h
    split at h
    · simp [State.raise] at h
    · exact shape_load h rfl rfl rfl rfl
  | psrfSw rs2 rs1 var =>
    simp only [exec, execPsrfSw] at h
    split at h
    · simp [State.raise] at h
    · exact shape_store h rfl rfl rfl rfl
  | psrfAddi d imm => exact .stepTagged d imm rfl (by simpa [exec, execPsrfAddi] using h.symm)
  | psrfBranch rs1 rs2 imm => exact .branch rs1 rs2 imm rfl (by simpa [exec, execPsrfBranch] using h.symm)
  | corfLui cd imm =>
    simp only [exec, execCorfLui] at h
    split at h
    · simp [State.raise] at h
    · next hk => exact .corf cd.toNat _ rfl rfl rfl rfl (by omega) (by simpa using h.symm)
  | corfAddi cd cs imm =>
    simp only [exec, execCorfAddi] at h
    split at h
    · simp [State.raise] at h
    · split at h
      · simp [State.raise] at h
      · next hk => exact .corf cd.toNat _ rfl rfl rfl rfl (by omega) (by simpa using h.symm)
  | ppsrfAddi pd ps imm =>
    simp only [exec, execPpsrfAddi] at h
    split at h
    · simp [State.raise] at h
    · split at h
      · simp [State.raise] at h
      · next hk => exact .psrf pd.toNat _ rfl rfl rfl rfl (by omega) (by simpa using h.symm)
  | lb | lh | lw | lbu | lhu => exact shape_load h rfl rfl rfl rfl
  | sb | sh | sw => exact shape_store h rfl rfl rfl rfl
  | add | sub | sll | slt | sltu | xor | srl | sra | or | and => exact shape_finishReg h rfl rfl rfl rfl
  | addi | slli | slti | sltiu | xori | srli | srai | ori | andi | lui | auipc =>
    exact shape_finishReg h rfl rfl rfl rfl

end Sys2Proof.Machine
end

