-- ==== Sys2Proof/Laws/Fetch.lean ====
section
/-! SUPPORT. What a fetch answers, and that a word placed by `State.placeWord` is the one fetched. -/

namespace Sys2Proof.Machine

/-- A fetch that goes on: no HALT_PC, an aligned `pc`, four bytes in MEM and a word that decodes. -/
theorem State.fetch_eq_next (s : State) (i : Instr) :
    s.fetch = .next i ↔ s.cfg.haltPc ≠ some s.pc ∧ s.pc.toNat % 4 = 0 ∧ (∀ b ∈ accessed s.pc 4, s.inMem b = true) ∧
      decodeWord s.fetchWord = .ok i := by
  unfold State.fetch
  split
  · next h => simp [h]
  · next h =>
    split
    · next ha => simp [ha]
    · next ha =>
      have ha : s.pc.toNat % 4 = 0 := by simpa using ha
      split
      · next hm =>
        have hm : ∀ b ∈ accessed s.pc 4, s.inMem b = true := by simpa using hm
        split
        · next j hj => simp [h, ha, hj]; exact fun _ => hm
        · next e hj => simp [hj]
      · next hm =>
        have hm : ∃ b ∈ accessed s.pc 4, s.inMem b = false := by simpa using hm
        obtain ⟨b, hb, hf⟩ := hm
        simp only [reduceCtorEq, false_iff]
        rintro ⟨-, -, hm, -⟩
        simp [hm b hb] at hf

/-- The word at an address after it was written there. -/
theorem Memory.readBytes_writeBytes_four (m : Memory) (a w : Word) :
    (m.writeBytes a w 4).readBytes a 4 = w := by
  have hb (k : Nat) (hk : k < 4) := m.byteAt_writeBytes_inside a w 4 k hk (by decide)
  have h0 := hb 0 (by decide)
  rw [show a + BitVec.ofNat 32 0 = a by simp] at h0
  rw [Memory.readBytes_four, h0, hb 1 (by decide), hb 2 (by decide), hb 3 (by decide)]
  exact bytes_word w

theorem State.fetchWord_placeWord (s : State) (w : Word) : (s.placeWord w).fetchWord = w :=
  Memory.readBytes_writeBytes_four s.mem _ w

theorem aligned_toNat (a : Word) : (a &&& 0xFFFFFFFC#32).toNat % 4 = 0 := by
  have h : (a &&& 0xFFFFFFFC#32) &&& 3#32 = 0#32 := by
    rw [BitVec.and_assoc]; simp
  generalize a &&& 0xFFFFFFFC#32 = x at *
  have h' : x.toNat &&& 3 = 0 := congrArg BitVec.toNat h
  rwa [show 3 = 2 ^ 2 - 1 by rfl, Nat.and_two_pow_sub_one_eq_mod] at h'

/-- A placed word that decodes is fetched, whatever the state. -/
theorem State.fetch_placeWord (s : State) (w : Word) (i : Instr) (h : decodeWord w = .ok i) :
    (s.placeWord w).fetch = .next i := by
  refine (State.fetch_eq_next _ i).2 ⟨?_, aligned_toNat s.pc, ?_, ?_⟩
  · show (if s.cfg.haltPc = some (s.pc &&& 0xFFFFFFFC#32) then none else s.cfg.haltPc) ≠ some (s.pc &&& 0xFFFFFFFC#32)
    split
    · simp
    · assumption
  · intro b hb
    have hb : b ∈ accessed (s.pc &&& 0xFFFFFFFC#32) 4 := hb
    have ha := aligned_toNat s.pc
    show inRegions (if (accessed (s.pc &&& 0xFFFFFFFC#32) 4).all s.inMem then s.cfg.memMap else
      ⟨(s.pc &&& 0xFFFFFFFC#32).toNat, 4⟩ :: s.cfg.memMap) b = true
    generalize s.pc &&& 0xFFFFFFFC#32 = a at *
    split
    · next hm => exact List.all_eq_true.1 hm b hb
    · obtain ⟨k, hk, rfl⟩ := List.mem_map.1 hb
      have hk := List.mem_range.1 hk
      have := a.isLt
      have e : (a + BitVec.ofNat 32 k).toNat = a.toNat + k := by
        simp only [BitVec.toNat_add, BitVec.toNat_ofNat]
        omega
      simp [inRegions, e, hk]
  · rw [State.fetchWord_placeWord, h]

end Sys2Proof.Machine
end

