-- ==== Sys2Proof/Laws/PerInstr.lean ====
section
/-! SUPPORT. The family `Opcode`, one lemma per constructor: the low seven bits of an instruction's word are the opcode
spec 30_encoding.md R62 gives it. -/

namespace Sys2Proof.Laws.Opcode

/-- The opcode R62 gives an instruction. -/
def opcodeOf : Instr → BitVec 7
  | .lb .. | .lh .. | .lw .. | .lbu .. | .lhu .. => 0x03#7
  | .psrfLw .. => 0x04#7
  | .addi .. | .slli .. | .slti .. | .sltiu .. | .xori .. | .srli .. | .srai .. | .ori .. | .andi .. => 0x13#7
  | .corfAddi .. | .ppsrfAddi .. => 0x14#7
  | .psrfAddi .. => 0x15#7
  | .auipc .. => 0x17#7
  | .sb .. | .sh .. | .sw .. => 0x23#7
  | .psrfSw .. => 0x24#7
  | .add .. | .sub .. | .sll .. | .slt .. | .sltu .. | .xor .. | .srl .. | .sra .. | .or .. | .and .. => 0x33#7
  | .lui .. => 0x37#7
  | .corfLui .. => 0x3B#7
  | .psrfBranch .. => 0x64#7

/-- The opcode field of the encoding is the instruction's opcode. -/
def Statement (i : Instr) : Prop := fOpcode (encode i) = opcodeOf i

theorem add (rd rs1 rs2 : Reg) : Statement (.add rd rs1 rs2) := fOpcode_formR ..
theorem sub (rd rs1 rs2 : Reg) : Statement (.sub rd rs1 rs2) := fOpcode_formR ..
theorem sll (rd rs1 rs2 : Reg) : Statement (.sll rd rs1 rs2) := fOpcode_formR ..
theorem slt (rd rs1 rs2 : Reg) : Statement (.slt rd rs1 rs2) := fOpcode_formR ..
theorem sltu (rd rs1 rs2 : Reg) : Statement (.sltu rd rs1 rs2) := fOpcode_formR ..
theorem xor (rd rs1 rs2 : Reg) : Statement (.xor rd rs1 rs2) := fOpcode_formR ..
theorem srl (rd rs1 rs2 : Reg) : Statement (.srl rd rs1 rs2) := fOpcode_formR ..
theorem sra (rd rs1 rs2 : Reg) : Statement (.sra rd rs1 rs2) := fOpcode_formR ..
theorem or (rd rs1 rs2 : Reg) : Statement (.or rd rs1 rs2) := fOpcode_formR ..
theorem and (rd rs1 rs2 : Reg) : Statement (.and rd rs1 rs2) := fOpcode_formR ..
theorem addi (rd rs1 : Reg) (imm : BitVec 12) : Statement (.addi rd rs1 imm) := fOpcode_formI ..
theorem slli (rd rs1 : Reg) (shamt : BitVec 5) : Statement (.slli rd rs1 shamt) := fOpcode_formR ..
theorem slti (rd rs1 : Reg) (imm : BitVec 12) : Statement (.slti rd rs1 imm) := fOpcode_formI ..
theorem sltiu (rd rs1 : Reg) (imm : BitVec 12) : Statement (.sltiu rd rs1 imm) := fOpcode_formI ..
theorem xori (rd rs1 : Reg) (imm : BitVec 12) : Statement (.xori rd rs1 imm) := fOpcode_formI ..
theorem srli (rd rs1 : Reg) (shamt : BitVec 5) : Statement (.srli rd rs1 shamt) := fOpcode_formR ..
theorem srai (rd rs1 : Reg) (shamt : BitVec 5) : Statement (.srai rd rs1 shamt) := fOpcode_formR ..
theorem ori (rd rs1 : Reg) (imm : BitVec 12) : Statement (.ori rd rs1 imm) := fOpcode_formI ..
theorem andi (rd rs1 : Reg) (imm : BitVec 12) : Statement (.andi rd rs1 imm) := fOpcode_formI ..
theorem lui (rd : Reg) (imm : BitVec 20) : Statement (.lui rd imm) := fOpcode_formU ..
theorem auipc (rd : Reg) (imm : BitVec 20) : Statement (.auipc rd imm) := fOpcode_formU ..
theorem lb (rd rs1 : Reg) (imm : BitVec 12) : Statement (.lb rd rs1 imm) := fOpcode_formI ..
theorem lh (rd rs1 : Reg) (imm : BitVec 12) : Statement (.lh rd rs1 imm) := fOpcode_formI ..
theorem lw (rd rs1 : Reg) (imm : BitVec 12) : Statement (.lw rd rs1 imm) := fOpcode_formI ..
theorem lbu (rd rs1 : Reg) (imm : BitVec 12) : Statement (.lbu rd rs1 imm) := fOpcode_formI ..
theorem lhu (rd rs1 : Reg) (imm : BitVec 12) : Statement (.lhu rd rs1 imm) := fOpcode_formI ..
theorem sb (rs2 rs1 : Reg) (imm : BitVec 12) : Statement (.sb rs2 rs1 imm) := fOpcode_formS ..
theorem sh (rs2 rs1 : Reg) (imm : BitVec 12) : Statement (.sh rs2 rs1 imm) := fOpcode_formS ..
theorem sw (rs2 rs1 : Reg) (imm : BitVec 12) : Statement (.sw rs2 rs1 imm) := fOpcode_formS ..
theorem psrfLw (rd rs1 : Reg) (var : BitVec 12) : Statement (.psrfLw rd rs1 var) := fOpcode_formI ..
theorem psrfSw (rs2 rs1 : Reg) (var : BitVec 12) : Statement (.psrfSw rs2 rs1 var) := fOpcode_formS ..
theorem psrfAddi (d : Reg) (imm : BitVec 12) : Statement (.psrfAddi d imm) := fOpcode_formI ..
theorem psrfBranch (rs1 rs2 : Reg) (imm : BitVec 13) : Statement (.psrfBranch rs1 rs2 imm) := fOpcode_formB ..
theorem corfLui (cd : Reg) (imm : BitVec 20) : Statement (.corfLui cd imm) := fOpcode_formU ..
theorem corfAddi (cd cs : Reg) (imm : BitVec 12) : Statement (.corfAddi cd cs imm) := fOpcode_formI ..
theorem ppsrfAddi (pd ps : Reg) (imm : BitVec 12) : Statement (.ppsrfAddi pd ps imm) := fOpcode_formI ..

end Sys2Proof.Laws.Opcode
end

