-- ==== Sys2Proof/Tests/Slice0.lean ====
section
/-! SUPPORT. Tests: the vectors of spec 95_test_vectors.md (their ids stand beside the tests), each one step from a small
state; a word of every instruction decoded; the ill-formed term; and a witness for every obligation that has hypotheses.
Expected values are the spec's. -/

namespace Sys2Proof.Tests

open Sys2Proof Sys2Proof.Machine

/-! ### Helpers -/

/-- The start of a vector: the word at `pc`, the registers, psrf entries, corf entries and memory bytes given, everything
else 0 and every other tag 31; MEM is the code word and 16 bytes at 0x1000, 80 bytes at 0x2000, 16 bytes at 0x3000. -/
def start (pc w : Word) (regs : List (Reg × Word)) (bytes : List (Nat × Byte)) (ps : List (Nat × PsrfEntry))
    (cs : List (Nat × Word)) : State :=
  let s0 : State := { State.reset with
    pc := pc
    cfg := { Config.reference with memMap := [⟨pc.toNat, 4⟩, ⟨0x1000, 12⟩, ⟨0x2000, 320⟩, ⟨0x3000, 16⟩] }
    psrf := ps.foldl (fun l e => l.set e.1 e.2) State.reset.psrf
    corf := cs.foldl (fun l e => l.set e.1 e.2) State.reset.corf }
  let s1 := regs.foldl (fun s e => s.setReg e.1 e.2) s0
  { s1 with mem := Memory.writeBytes (bytes.foldl (fun (m : Memory) e => Memory.setByte m e.1 e.2) ([] : Memory)) pc w 4 }

/-- A register after one step; `none` if the step does not go on. -/
def regAfter (s : State) (r : Reg) : Option Word :=
  match step s with
  | .next t => some (t.reg r)
  | _ => none

/-- Bytes of memory after one step. -/
def bytesAfter (s : State) (a : Nat) (n : Nat) : Option (List Byte) :=
  match step s with
  | .next t => some ((List.range n).map fun k => t.mem.byteAt (a + k))
  | _ => none

/-- psrf values after one step. -/
def psAfter (s : State) (ks : List Nat) : Option (List Word) :=
  match step s with
  | .next t => some (ks.map t.psVal)
  | _ => none

/-- A corf entry after one step. -/
def coAfter (s : State) (k : Nat) : Option Word :=
  match step s with
  | .next t => some (t.co k)
  | _ => none

/-- The fault of one step. -/
def faultAfter (s : State) : Option Fault :=
  match step s with
  | .fault f => some f
  | _ => none

/-- A vector on registers alone, at 0x100. -/
def regs (w : Word) (rs : List (Reg × Word)) : State := start 0x100 w rs [] [] []

/-- The data of section 2.3. -/
def data23 : List (Nat × Byte) := [(0x1000, 0x80), (0x1001, 0x91), (0x1002, 0xA2), (0x1003, 0xB3), (0x1004, 0x7F)]

/-- A vector of section 2.3: x1 = 0x1000, x2 as given, x5 = 0x55555555. -/
def memv (w : Word) (x2 : Word) : State := start 0x100 w [(1, 0x1000), (2, x2), (5, 0x55555555)] data23 [] []

/-- The psrf of vectors S12 to S24: entries 0 and 5 tagged 6, entry 1 tagged 7, entry 9 tagged 0. -/
def tags24 (p0 p1 p5 p9 : Word) : List (Nat × PsrfEntry) := [(0, ⟨p0, 6⟩), (1, ⟨p1, 7⟩), (5, ⟨p5, 6⟩), (9, ⟨p9, 0⟩)]

/-- An instruction stepped from x10 with one word of data at an address (S1 to S4). -/
def psrfv (w : Word) (x10 : Word) (ps : List (Nat × PsrfEntry)) (a : Nat) (lo hi : Byte) : State :=
  start 0x100 w [(10, x10), (5, 0xCAFEF00D)] [(a, lo), (a + 2, hi), (a + 3, hi)] ps []

/-! ### Decoding: a word of every instruction, from sections 2.1 to 2.4 and 3 -/

theorem test_decode_arith : [0x002081B3#32, 0x402081B3#32, 0x002091B3#32, 0x0020A1B3#32, 0x0020B1B3#32, 0x0020C1B3#32,
    0x0020D1B3#32, 0x4020D1B3#32, 0x0020E1B3#32, 0x0020F1B3#32].map decodeWord =
  [.ok (.add 3 1 2), .ok (.sub 3 1 2), .ok (.sll 3 1 2), .ok (.slt 3 1 2), .ok (.sltu 3 1 2), .ok (.xor 3 1 2),
    .ok (.srl 3 1 2), .ok (.sra 3 1 2), .ok (.or 3 1 2), .ok (.and 3 1 2)] := by decide

theorem test_decode_arithImm : [0x80030293#32, 0x01F31293#32, 0xFFF32293#32, 0xFFF33293#32, 0xFFF34293#32, 0x00435293#32,
    0x41F35293#32, 0x0F036293#32, 0xFF037293#32, 0x123453B7#32, 0xFFFFF397#32].map decodeWord =
  [.ok (.addi 5 6 0x800), .ok (.slli 5 6 31), .ok (.slti 5 6 0xFFF), .ok (.sltiu 5 6 0xFFF), .ok (.xori 5 6 0xFFF),
    .ok (.srli 5 6 4), .ok (.srai 5 6 31), .ok (.ori 5 6 0x0F0), .ok (.andi 5 6 0xFF0), .ok (.lui 7 0x12345),
    .ok (.auipc 7 0xFFFFF)] := by decide

theorem test_decode_memory : [0x00408283#32, 0x00209283#32, 0xFFC0A283#32, 0x0000C283#32, 0x0020D283#32, 0x002080A3#32,
    0x00209123#32, 0x0020A623#32].map decodeWord =
  [.ok (.lb 5 1 4), .ok (.lh 5 1 2), .ok (.lw 5 1 0xFFC), .ok (.lbu 5 1 0), .ok (.lhu 5 1 2), .ok (.sb 2 1 1),
    .ok (.sh 2 1 2), .ok (.sw 2 1 12)] := by decide

theorem test_decode_special : [0x00157284#32, 0x02554024#32, 0xFFD30315#32, 0xFE730AE4#32, 0x7E730FE4#32, 0x80730064#32,
    0x000101BB#32, 0xFFC18214#32, 0xFF019214#32].map decodeWord =
  [.ok (.psrfLw 5 10 1), .ok (.psrfSw 5 10 32), .ok (.psrfAddi 6 0xFFD), .ok (.psrfBranch 6 7 (BitVec.ofInt 13 (-12))),
    .ok (.psrfBranch 6 7 4094), .ok (.psrfBranch 6 7 (BitVec.ofInt 13 (-4096))), .ok (.corfLui 3 0x10),
    .ok (.corfAddi 4 3 0xFFC), .ok (.ppsrfAddi 4 3 0xFF0)] := by decide

/-- X1 to X10, I8, I24, M14, M15, M22, S8, S11, S17, S18, S25, S34: no instruction. -/
theorem test_decode_illegal : [0x00208463#32, 0x0000006F#32, 0x00008067#32, 0x0FF0000F#32, 0x00000073#32, 0x022081B3#32,
    0x00000000#32, 0xFFFFFFFF#32, 0x00000001#32, 0x402091B3#32, 0x02431293#32, 0x20435293#32, 0x0000B283#32,
    0x0000E283#32, 0x0020B023#32, 0x00052284#32, 0x00552024#32, 0x00138315#32, 0x00131315#32, 0x00731464#32,
    0x0011A194#32].all (fun w => (decodeWord w).toOption.isNone) = true := by decide

/-- The encoder gives the words of section 7 of 30_encoding.md back. -/
theorem test_encode : [.add 3 1 2, .addi 1 0 0xFFF, .srai 5 6 4, .sw 2 1 8, .lui 7 0x12345,
    .psrfBranch 6 7 (BitVec.ofInt 13 (-12)), .psrfLw 5 10 1].map encode =
  [0x002081B3#32, 0xFFF00093#32, 0x40435293#32, 0x0020A423#32, 0x123453B7#32, 0xFE730AE4#32, 0x00157284#32] := by decide

/-- The opcode table's numbering, and a word cut to its low bits. -/
theorem test_decodeTableWord : decodeTableWord 32 0x00000064 = some (.psrfBranch 0 0 0) ∧
    decodeTableWord 32 0x00001014 = some (.ppsrfAddi 0 0 0) ∧ decodeTableWord 32 0 = none := by decide

/-! ### Well-formedness (30_encoding.md R59) -/

theorem test_wellFormed_refuses_odd_offset : (Instr.psrfBranch 6 7 5).wellFormed = false := by decide
theorem test_wellFormed_admits_even_offset : (Instr.psrfBranch 6 7 4094).wellFormed = true := by decide

/-! ### Arithmetic Operations (section 2.1) -/

/-- A2. -/
theorem test_add_wraps : regAfter (regs 0x002081B3#32 [(1, 0xFFFFFFFF), (2, 0x00000001)]) 3 = some 0x00000000#32 := by decide

/-- A4: a write to `x[0]` is discarded. -/
theorem test_add_x0 : regAfter (regs 0x00208033#32 [(1, 0x5), (2, 0x7)]) 0 = some 0#32 := by decide

/-- A6. -/
theorem test_sub_negative : regAfter (regs 0x402081B3#32 [(1, 0x00000005), (2, 0x00000007)]) 3 = some 0xFFFFFFFE#32 := by decide

/-- A9. -/
theorem test_sub_negates_minimum : regAfter (regs 0x401000B3#32 [(1, 0x80000000)]) 1 = some 0x80000000#32 := by decide

/-- A11. -/
theorem test_sll_by_32 : regAfter (regs 0x002091B3#32 [(1, 0xABCD1234), (2, 0x00000020)]) 3 = some 0xABCD1234#32 := by decide

/-- A12. -/
theorem test_sll_by_all_ones : regAfter (regs 0x002091B3#32 [(1, 0x00000003), (2, 0xFFFFFFFF)]) 3 = some 0x80000000#32 := by decide

/-- A14. -/
theorem test_slt_minimum : regAfter (regs 0x0020A1B3#32 [(1, 0x80000000), (2, 0x7FFFFFFF)]) 3 = some 0x00000001#32 := by decide

/-- A15. -/
theorem test_slt_equal : regAfter (regs 0x0020A1B3#32 [(1, 0x00000005), (2, 0x00000005)]) 3 = some 0x00000000#32 := by decide

/-- A16. -/
theorem test_sltu_all_ones : regAfter (regs 0x0020B1B3#32 [(1, 0xFFFFFFFF), (2, 0x00000001)]) 3 = some 0x00000000#32 := by decide

/-- A17. -/
theorem test_sltu_zero : regAfter (regs 0x0020B1B3#32 [(1, 0x00000000), (2, 0x00000007)]) 3 = some 0x00000001#32 := by decide

/-- A18. -/
theorem test_xor : regAfter (regs 0x0020C1B3#32 [(1, 0xFF00FF00), (2, 0x0FF00FF0)]) 3 = some 0xF0F0F0F0#32 := by decide

/-- A20. -/
theorem test_srl_by_4 : regAfter (regs 0x0020D1B3#32 [(1, 0x80000000), (2, 0x00000004)]) 3 = some 0x08000000#32 := by decide

/-- A22. -/
theorem test_srl_by_33 : regAfter (regs 0x0020D1B3#32 [(1, 0x80000000), (2, 0x00000021)]) 3 = some 0x40000000#32 := by decide

/-- A23. -/
theorem test_sra_by_4 : regAfter (regs 0x4020D1B3#32 [(1, 0x80000000), (2, 0x00000004)]) 3 = some 0xF8000000#32 := by decide

/-- A25. -/
theorem test_sra_positive : regAfter (regs 0x4020D1B3#32 [(1, 0x7FFFFFFF), (2, 0x0000001F)]) 3 = some 0x00000000#32 := by decide

/-- A26. -/
theorem test_or : regAfter (regs 0x0020E1B3#32 [(1, 0xF0F00000), (2, 0x0000F0F0)]) 3 = some 0xF0F0F0F0#32 := by decide

/-- A27. -/
theorem test_and : regAfter (regs 0x0020F1B3#32 [(1, 0xFF00FF00), (2, 0x0FF00FF0)]) 3 = some 0x0F000F00#32 := by decide

/-! ### Arithmetic Immediate Operations (section 2.2) -/

/-- I3. -/
theorem test_addi_overflow : regAfter (regs 0x00130293#32 [(6, 0x7FFFFFFF)]) 5 = some 0x80000000#32 := by decide

/-- I4. -/
theorem test_addi_minimum : regAfter (regs 0x80030293#32 [(6, 0x00000000)]) 5 = some 0xFFFFF800#32 := by decide

/-- I6. -/
theorem test_slli_by_4 : regAfter (regs 0x00431293#32 [(6, 0x0000000F)]) 5 = some 0x000000F0#32 := by decide

/-- I7. -/
theorem test_slli_by_31 : regAfter (regs 0x01F31293#32 [(6, 0x00000001)]) 5 = some 0x80000000#32 := by decide

/-- I9. -/
theorem test_slti_signed : regAfter (regs 0xFFF32293#32 [(6, 0xFFFFFFFE)]) 5 = some 0x00000001#32 := by decide

/-- I12. -/
theorem test_slti_equal : regAfter (regs 0x00732293#32 [(6, 0x00000007)]) 5 = some 0x00000000#32 := by decide

/-- I16. -/
theorem test_sltiu_below : regAfter (regs 0xFFF33293#32 [(6, 0xFFFFFFFE)]) 5 = some 0x00000001#32 := by decide

/-- I17. -/
theorem test_sltiu_equal : regAfter (regs 0xFFF33293#32 [(6, 0xFFFFFFFF)]) 5 = some 0x00000000#32 := by decide

/-- I18. -/
theorem test_xori_complement : regAfter (regs 0xFFF34293#32 [(6, 0x0F0F0F0F)]) 5 = some 0xF0F0F0F0#32 := by decide

/-- I20. -/
theorem test_srli_by_31 : regAfter (regs 0x01F35293#32 [(6, 0x80000000)]) 5 = some 0x00000001#32 := by decide

/-- I21. -/
theorem test_srai_by_4 : regAfter (regs 0x40435293#32 [(6, 0x80000000)]) 5 = some 0xF8000000#32 := by decide

/-- I23. -/
theorem test_srai_by_0 : regAfter (regs 0x40035293#32 [(6, 0x80000000)]) 5 = some 0x80000000#32 := by decide

/-- I25. -/
theorem test_ori : regAfter (regs 0x0F036293#32 [(6, 0x00000F00)]) 5 = some 0x00000FF0#32 := by decide

/-- I26. -/
theorem test_ori_negative : regAfter (regs 0xFFF36293#32 [(6, 0x12345678)]) 5 = some 0xFFFFFFFF#32 := by decide

/-- I27. -/
theorem test_andi : regAfter (regs 0x0FF37293#32 [(6, 0x12345678)]) 5 = some 0x00000078#32 := by decide

/-- I28. -/
theorem test_andi_negative : regAfter (regs 0xFF037293#32 [(6, 0x12345678)]) 5 = some 0x12345670#32 := by decide

/-- I30. -/
theorem test_lui : regAfter (regs 0x123453B7#32 [(6, 0x00000000)]) 7 = some 0x12345000#32 := by decide

/-- I33: `pc` is the address of the instruction itself. -/
theorem test_auipc : regAfter (regs 0x00001397#32 []) 7 = some 0x00001100#32 := by decide

/-- I34. -/
theorem test_auipc_wraps : regAfter (start 0x2000 0xFFFFF397#32 [] [] [] []) 7 = some 0x00001000#32 := by decide

/-! ### Memory Instructions (section 2.3) -/

/-- M1. -/
theorem test_lb : regAfter (memv 0x00008283#32 0) 5 = some 0xFFFFFF80#32 := by decide

/-- M2. -/
theorem test_lb_positive : regAfter (memv 0x00408283#32 0) 5 = some 0x0000007F#32 := by decide

/-- M3. -/
theorem test_lbu : regAfter (memv 0x0000C283#32 0) 5 = some 0x00000080#32 := by decide

/-- M4. -/
theorem test_lh : regAfter (memv 0x00009283#32 0) 5 = some 0xFFFF9180#32 := by decide

/-- M5. -/
theorem test_lh_high : regAfter (memv 0x00209283#32 0) 5 = some 0xFFFFB3A2#32 := by decide

/-- M7. -/
theorem test_lhu : regAfter (memv 0x0020D283#32 0) 5 = some 0x0000B3A2#32 := by decide

/-- M8. -/
theorem test_lw : regAfter (memv 0x0000A283#32 0) 5 = some 0xB3A29180#32 := by decide

/-- M11 with LHU: 20_memory.md R32. -/
theorem test_lhu_misaligned : faultAfter (memv 0x0010D283#32 0) = some (.misalignedAccess 0x1001 2 0x100) := by decide

/-- M13. -/
theorem test_lw_outside : faultAfter (memv 0xFFC0A283#32 0) = some (.accessFault 0xFFC 4 0x100) := by decide

/-- M16. -/
theorem test_sb : bytesAfter (memv 0x002080A3#32 0x123456EE) 0x1000 4 = some [0x80, 0xEE, 0xA2, 0xB3] := by decide

/-- M17. -/
theorem test_sh : bytesAfter (memv 0x00209123#32 0x1234BEEF) 0x1000 5 = some [0x80, 0x91, 0xEF, 0xBE, 0x7F] := by decide

/-- M18. -/
theorem test_sw : bytesAfter (memv 0x0020A423#32 0x11223344) 0x1008 4 = some [0x44, 0x33, 0x22, 0x11] := by decide

/-- M19. -/
theorem test_sh_misaligned : faultAfter (memv 0x002090A3#32 0) = some (.misalignedAccess 0x1001 2 0x100) := by decide

/-- M23: a store into CODE. -/
theorem test_sw_code : (let s := start 0x100 0x0020A023#32 [(1, 0x100)] [] [] []
  faultAfter { s with cfg := { s.cfg with codeMap := [⟨0x100, 4⟩] } }) = some (.storeToCode 0x100 0x100) := by decide

/-! ### Special instructions (section 2.4) -/

/-- S1: address 2110. -/
theorem test_psrfLw : regAfter (psrfv 0x00157284#32 0x2000 [(6, ⟨0x10, 31⟩), (7, ⟨0x100, 31⟩)] 0x2110 0x44 0xAA) 5 =
    some 0xAAAA0044#32 := by decide

/-- S5: `var` of 3. -/
theorem test_psrfLw_reserved : faultAfter (psrfv 0x00357284#32 0x2000 [] 0x2000 0 0) = some (.reservedOperand 3 0x100) := by
  decide

/-- S9. -/
theorem test_psrfSw : bytesAfter (psrfv 0x00554124#32 0x3000 [(12, ⟨8, 31⟩)] 0x3000 0 0) 0x3008 4 = some [0x0D, 0xF0, 0xFE, 0xCA] := by
  decide

/-- S10: `var` is assembled from both fields. -/
theorem test_psrfSw_reserved : faultAfter (psrfv 0x02554024#32 0x3000 [] 0x3000 0 0) = some (.reservedOperand 32 0x100) := by
  decide

/-- S12: every entry tagged 6, none tagged 7; the sum wraps. -/
theorem test_psrfAddi : psAfter (start 0x100 0x00130315#32 [(6, 2)] [] (tags24 8 5 0xFFFFFFFC 0) [(0, 4), (1, 0x64), (5, 8)]) [0, 1, 5] =
    some [0xC, 5, 4] := by decide

/-- S15: `x[0]` stays 0 and the entries tagged 0 are stepped. -/
theorem test_psrfAddi_x0 : psAfter (start 0x100 0x00500015#32 [] [] (tags24 0 0 0 1) [(9, 0xFFFFFFFF)]) [9] = some [0] := by decide

/-- S19: taken, `pc` goes back 12 and no entry changes. -/
theorem test_psrfBranch_taken : (let t := (start 0x10C 0xFE730AE4#32 [] [] (tags24 8 5 0xC 0) []).branch true 6 (BitVec.ofInt 13 (-12))
  (t.pc, [0, 1, 5].map t.psVal)) = (0x100#32, [8, 5, 0xC]) := by decide

/-- S20: not taken, the entries tagged 6 are cleared. -/
theorem test_psrfBranch_not_taken : (let t := (start 0x10C 0xFE730AE4#32 [] [] (tags24 8 5 0xC 0) []).branch false 6 (BitVec.ofInt 13 (-12))
  (t.pc, [0, 1, 5].map t.psVal, t.psrf.map PsrfEntry.tag == (start 0x10C 0 [] [] (tags24 0 0 0 0) []).psrf.map PsrfEntry.tag)) =
  (0x110#32, [0, 5, 0], true) := by decide

/-- S26. -/
theorem test_corfLui : coAfter (regs 0x000101BB#32 []) 3 = some 0x00010000#32 := by decide

/-- S27: `co[0]` is not hardwired. -/
theorem test_corfLui_entry0 : coAfter (regs 0xFFFFF03B#32 []) 0 = some 0xFFFFF000#32 := by decide

/-- S30. -/
theorem test_corfAddi : coAfter (start 0x100 0xFFC18214#32 [] [] [] [(3, 0x00010000)]) 4 = some 0x0000FFFC#32 := by decide

/-- S31. -/
theorem test_corfAddi_wraps : coAfter (regs 0xFFF18194#32 []) 3 = some 0xFFFFFFFF#32 := by decide

/-- S33. -/
theorem test_ppsrfAddi : psAfter (start 0x100 0xFF019214#32 [] [] [(3, ⟨0x10, 31⟩), (4, ⟨0x4D, 31⟩)] []) [3, 4] = some [0x10, 0] := by
  decide

/-! ### Fetch (section 2.6) -/

/-- F1: a misaligned `pc`. -/
theorem test_fetch_misaligned : faultAfter (start 0x106 0x00000013#32 [] [] [] []) = some (.misalignedFetch 0x106) := by decide
/-- F2: `pc` past the end of MEM. -/
theorem test_fetch_outside : faultAfter { regs 0x00000013#32 [] with pc := 0x104 } = some (.fetchAccess 0x104) := by decide
/-- X1: an illegal word. -/
theorem test_fetch_illegal : faultAfter (regs 0x00208463#32 []) = some (.illegalInstruction 0x00208463 0x100) := by decide
/-- F3: `pc` is HALT_PC. -/
theorem test_halt : (let s := regs 0x00000013#32 []
  match step { s with cfg := { s.cfg with haltPc := some 0x100 } } with
  | .refused r => some r
  | _ => none) = some .halted := by decide

/-! ### Witnesses: states and operands that meet the hypotheses of the statements in Obligations.lean, for each clause
that has hypotheses of its own, at a boundary of its range -/

/-- The whole address space is MEM; `x1` is as given, x2 is 0x8899AABB. -/
def wide (x1 : Word) : State := (State.reset.setReg 1 x1).setReg 2 0x8899AABB#32

/-- `wide`, with its CODE and with the word `w` placed at `pc`. -/
def coded (w : Word) (code : List Region) : State :=
  let s := (wide 0).placeWord w
  { s with cfg := { s.cfg with codeMap := code } }

/-- The state an outcome goes on in. -/
def nextOf (o : Host.Outcome State Fault Refusal) : Option State :=
  match o with
  | .next t => some t
  | _ => none

theorem nextOf_some {o : Host.Outcome State Fault Refusal} {t : State} (h : nextOf o = some t) : o = .next t := by
  cases o with
  | next u => exact congrArg _ (Option.some.inj h)
  | fault f => cases h
  | refused r => cases h

theorem in_mem {s : State} {l : List Word} (h : l.all s.inMem = true) : ∀ b ∈ l, s.inMem b = true :=
  List.all_eq_true.mp h

theorem storable {s : State} {l : List Word} (h : l.all s.inMem = true) (g : l.all (fun b => !s.inCode b) = true) :
    ∀ b ∈ l, s.inMem b = true ∧ s.inCode b = false :=
  fun b hb => ⟨List.all_eq_true.mp h b hb, by simpa using List.all_eq_true.mp g b hb⟩

/-- A psrf and a corf of two entries each. -/
def small : State :=
  { State.reset with psrf := [⟨5#32, 6#5⟩, ⟨9#32, 7#5⟩], corf := [3#32, 0xFFFFFFFF#32] }

theorem test_witness_DecodeOfEncode : (Instr.psrfBranch 31 31 0x1FFE#13).wellFormed = true := by decide

theorem test_witness_EncodeOfDecode : decodeWord 0xFE0F8FE4#32 = .ok (.psrfBranch 31 0 0x1FFE#13) := by decide

theorem test_witness_EveryInstructionIsFourBytes :
    decodeWord 0x00000033#32 = .ok (.add 0 0 0) ∧ decodeWord 0#32 = .error (.unknownOpcode 0#7) ∧
    [0x33#8, 0#8, 0#8].length < 4 := by decide

theorem test_witness_StepRunsDecodedInstruction : ∃ s : State, s.cfg.haltPc ≠ some s.pc ∧ s.pc.toNat % 4 = 0 ∧
    s.inMem s.pc = true ∧ s.inMem (s.pc + 1#32) = true ∧ s.inMem (s.pc + 2#32) = true ∧ s.inMem (s.pc + 3#32) = true ∧
    decodeWord (s.byte (s.pc + 3#32) ++ s.byte (s.pc + 2#32) ++ s.byte (s.pc + 1#32) ++ s.byte s.pc) =
      .ok (.add 3 1 2) :=
  ⟨{ State.reset with pc := 0xFFFFFFFC#32 }.placeWord 0x002081B3#32, by decide⟩

theorem test_witness_StepStopsBeforeExecuting :
    (∃ s : State, s.cfg.haltPc = some s.pc) ∧
    (∃ s : State, s.cfg.haltPc ≠ some s.pc ∧ s.pc.toNat % 4 ≠ 0) ∧
    (∃ s : State, s.cfg.haltPc ≠ some s.pc ∧ s.pc.toNat % 4 = 0 ∧ ∃ b ∈ accessed s.pc 4, s.inMem b = false) ∧
    (∃ s : State, s.cfg.haltPc ≠ some s.pc ∧ s.pc.toNat % 4 = 0 ∧ (∀ b ∈ accessed s.pc 4, s.inMem b = true) ∧
      decodeWord (s.byte (s.pc + 3#32) ++ s.byte (s.pc + 2#32) ++ s.byte (s.pc + 1#32) ++ s.byte s.pc) =
        .error (.unknownOpcode 0#7)) :=
  ⟨⟨{ State.reset with cfg := { Config.reference with haltPc := some 0x100#32 } }, by decide⟩,
   ⟨{ State.reset with pc := 0x102#32 }, by decide⟩,
   ⟨{ State.reset with cfg := { Config.reference with memMap := [⟨0, 0x103⟩] } }, by decide, by decide,
     0x103#32, by decide, by decide⟩,
   ⟨State.reset, by decide, by decide, in_mem (by decide), by decide⟩⟩

theorem test_witness_PlacedInstructionRuns : decodeTableWord 32 0x33 = some (.add 0 0 0) := by decide

theorem test_witness_SltuXorLuiResult : (31#5 : Reg) ≠ 0#5 := by decide

theorem test_witness_XorSltuLuiFrame : ∃ i : Instr, i = .xor 0 1 2 ∨ i = .sltu 0 1 2 ∨ i = .lui 0 5#20 :=
  ⟨_, .inl rfl⟩

theorem test_witness_ImmediateShiftResult : (0x20#7 ≠ 0x00#7) ∧ (0x01#7 ≠ 0x00#7 ∧ 0x01#7 ≠ 0x20#7) := by decide

theorem test_witness_LoadByteResult : (wide 0).ea 1 0xFFF#12 = 0xFFFFFFFF#32 ∧
    (wide 0).inMem ((wide 0).ea 1 0xFFF#12) = true := by decide

theorem test_witness_LoadHalfResult : ∃ a : Word, a = (wide 0).ea 1 0xFFE#12 ∧ a.toNat % 2 = 0 ∧
    (wide 0).inMem a = true ∧ (wide 0).inMem (a + 1#32) = true := ⟨0xFFFFFFFE#32, by decide⟩

theorem test_witness_LoadWordResult : ∃ a : Word, a = (wide 0).ea 1 0xFFC#12 ∧ a.toNat % 4 = 0 ∧
    (wide 0).inMem a = true ∧ (wide 0).inMem (a + 1#32) = true ∧ (wide 0).inMem (a + 2#32) = true ∧
    (wide 0).inMem (a + 3#32) = true := ⟨0xFFFFFFFC#32, by decide⟩

theorem test_witness_StoreByteResult : ∃ a : Word, a = (wide 0).ea 1 0xFFF#12 ∧ (wide 0).inMem a = true ∧
    (wide 0).inCode a = false := ⟨0xFFFFFFFF#32, by decide⟩

theorem test_witness_StoreHalfResult : ∃ a : Word, a = (wide 0).ea 1 0xFFE#12 ∧ a.toNat % 2 = 0 ∧
    ∀ b ∈ accessed a 2, (wide 0).inMem b = true ∧ (wide 0).inCode b = false := ⟨0xFFFFFFFE#32, by decide, by decide, storable (by decide) (by decide)⟩

theorem test_witness_StoreWordResult : ∃ a : Word, a = (wide 0).ea 1 0xFFC#12 ∧ a.toNat % 4 = 0 ∧
    ∀ b ∈ accessed a 4, (wide 0).inMem b = true ∧ (wide 0).inCode b = false := ⟨0xFFFFFFFC#32, by decide, by decide, storable (by decide) (by decide)⟩

theorem test_witness_LoadAfterStoreReturnsValue :
    (∃ t, (3#5 : Reg) ≠ 0#5 ∧ exec (.sw 2 1 0xFFC#12) (wide 0) = .next t ∧
      t.ea 1 0xFFC#12 = (wide 0).ea 1 0xFFC#12) ∧
    (∃ t, (3#5 : Reg) ≠ 0#5 ∧ exec (.sh 2 1 0xFFE#12) (wide 0) = .next t ∧
      t.ea 1 0xFFE#12 = (wide 0).ea 1 0xFFE#12) ∧
    (∃ t, (3#5 : Reg) ≠ 0#5 ∧ exec (.sb 2 1 0xFFF#12) (wide 0) = .next t ∧
      t.ea 1 0xFFF#12 = (wide 0).ea 1 0xFFF#12) :=
  ⟨⟨_, by decide, rfl, by decide⟩, ⟨_, by decide, rfl, by decide⟩, ⟨_, by decide, rfl, by decide⟩⟩

theorem test_witness_MixedWidthLittleEndian : ∃ t, (3#5 : Reg) ≠ 0#5 ∧ exec (.sw 2 1 0xFFC#12) (wide 0) = .next t ∧
    t.ea 1 0xFFC#12 = (wide 0).ea 1 0xFFC#12 ∧ t.ea 1 0xFFE#12 = (wide 0).ea 1 0xFFC#12 + 2#32 :=
  ⟨_, by decide, rfl, by decide⟩

theorem test_witness_AguAddressIsTheSum : State.reset.cfg.aguSelect[(2#12).toNat]? = some [12, 13, 14] ∧
    ∀ k ∈ [12, 13, 14], k < State.reset.psrf.length := by decide

theorem test_witness_PsrfLwResult : ∃ a : Word, a = (wide 0xFFFFFFFC#32).psrfAddr 1 2#12 ∧ (2#12).toNat < 3 ∧
    a.toNat % 4 = 0 ∧ ∀ b ∈ accessed a 4, (wide 0xFFFFFFFC#32).inMem b = true := ⟨0xFFFFFFFC#32, by decide, by decide, by decide, in_mem (by decide)⟩

theorem test_witness_PsrfSwResult : ∃ a : Word, a = (wide 0xFFFFFFFC#32).psrfAddr 1 2#12 ∧ (2#12).toNat < 3 ∧
    a.toNat % 4 = 0 ∧ ∀ b ∈ accessed a 4, (wide 0xFFFFFFFC#32).inMem b = true ∧
      (wide 0xFFFFFFFC#32).inCode b = false := ⟨0xFFFFFFFC#32, by decide, by decide, by decide, storable (by decide) (by decide)⟩

theorem test_witness_ZeroSumsAreLwAndSw : State.reset.cfg.aguSelect[(2#12).toNat]? = some [12, 13, 14] ∧
    ∀ k ∈ [12, 13, 14], ∃ tag, State.reset.psrf[k]? = some ⟨0#32, tag⟩ := by
  refine ⟨by decide, fun k hk => ⟨31#5, ?_⟩⟩
  revert k
  decide

/-- The counter 6 tags entry 0 and does not tag entry 1; the counter 0 is the one that stays 0. -/
theorem test_witness_PsrfAddiResult : (7#5 : Reg) ≠ 6#5 ∧ (6#5 : Reg) ≠ 0#5 ∧
    (∃ e : PsrfEntry, small.psrf[1]? = some e ∧ e.tag ≠ 6#5) ∧
    (∃ (e : PsrfEntry) (c : Word), small.psrf[0]? = some e ∧ e.tag = 6#5 ∧ small.corf[0]? = some c) :=
  ⟨by decide, by decide, ⟨_, rfl, by decide⟩, ⟨_, _, rfl, by decide, rfl⟩⟩

theorem test_witness_UntaggedPsrfAddiIsAddi : ∀ e ∈ small.psrf, e.tag ≠ 0#5 := by decide

/-- Which arm of the `if` a state takes is the free value of PSRF_BRANCH_COND; both arms are tested on
`State.branch` above. -/
theorem test_witness_PsrfBranchResult : (0x1FFE#13).toNat % 2 = 0 ∧
    ∃ e : PsrfEntry, small.psrf[1]? = some e := ⟨by decide, ⟨_, rfl⟩⟩

/-- The hypotheses of PartialSumCountsSteps on a list. -/
def LoopPremises (s : State) (k : Nat) (d : Reg) (is : List Instr) : Prop :=
  (∀ cd imm, .corfLui cd imm ∈ is → cd.toNat ≠ k) ∧ (∀ cd cs imm, .corfAddi cd cs imm ∈ is → cd.toNat ≠ k) ∧
  (∀ pd ps imm, .ppsrfAddi pd ps imm ∈ is → pd.toNat ≠ k) ∧
  (∀ pre post rs1 rs2 imm u, is = pre ++ .psrfBranch rs1 rs2 imm :: post → execAll pre s = .next u →
    u.branchTag rs1 rs2 = d → Config.psrfBranchCond (u.reg rs1) (u.reg rs2) = true) ∧
  ∃ t, execAll is s = .next t ∧ ∃ rs1 rs2, t.branchTag rs1 rs2 = d

/-- Steps of the counter 6, a psrf.branch on 7, and writes of the other entries of both files. -/
theorem test_witness_PartialSumCountsSteps : small.psrf[0]? = some ⟨5#32, 6#5⟩ ∧ small.corf[0]? = some 3#32 ∧
    LoopPremises small 0 6 [.psrfAddi 6 1#12, .ppsrfAddi 1 0 4#12, .corfLui 1 2#20, .corfAddi 1 1 2#12,
      .psrfBranch 7 6 8#13] := by
  refine ⟨rfl, rfl, by simp +contextual, by simp +contextual, by simp +contextual, ?_, _, rfl, 6, 7, ?_⟩
  · intro pre post rs1 rs2 imm u hs hu ht
    rcases pre with _ | ⟨a, _ | ⟨b, _ | ⟨c, _ | ⟨e, _ | ⟨f, pre⟩⟩⟩⟩⟩ <;> simp at hs
    obtain ⟨rfl, rfl, rfl, rfl, ⟨rfl, rfl, rfl⟩, -⟩ := hs
    cases hu
    exact absurd ht (by decide)
  · rw [State.branchTag_congr (State.branch_cfg ..)]
    rfl

/-- A loop closed by taken branches on its own counter, whatever makes the condition hold. -/
theorem test_witness_PartialSumCountsSteps_loop (hc : ∀ a b, Config.psrfBranchCond a b = true) :
    LoopPremises small 0 6 [.psrfAddi 6 1#12, .psrfBranch 6 7 0x1FFC#13, .psrfAddi 6 1#12, .psrfBranch 6 7 0x1FFC#13] := by
  refine ⟨by simp, by simp, by simp, fun _ _ _ _ _ _ _ _ _ => hc _ _, _, rfl, 6, 7, ?_⟩
  rw [State.branchTag_congr (s := small) (by simp)]
  rfl

theorem test_witness_CorfLuiResult : small.corf.length ≤ (2#5 : Reg).toNat ∧
    (1#5 : Reg).toNat < small.corf.length := by decide

theorem test_witness_CorfAddiResult : small.corf.length ≤ (2#5 : Reg).toNat ∧
    ((1#5 : Reg).toNat < small.corf.length ∧ small.corf.length ≤ (2#5 : Reg).toNat) ∧
    (∃ c, small.corf[(1#5 : Reg).toNat]? = some c ∧ (0#5 : Reg).toNat < small.corf.length) :=
  ⟨by decide, by decide, ⟨_, rfl, by decide⟩⟩

theorem test_witness_PpsrfAddiResult : small.psrf.length ≤ (2#5 : Reg).toNat ∧
    ((1#5 : Reg).toNat < small.psrf.length ∧ small.psrf.length ≤ (2#5 : Reg).toNat) ∧
    (∃ e f, small.psrf[(1#5 : Reg).toNat]? = some e ∧ small.psrf[(0#5 : Reg).toNat]? = some f) :=
  ⟨by decide, by decide, ⟨_, _, rfl, rfl⟩⟩

/-- Both sides of the equivalence, with a fault and without one. -/
theorem test_witness_ExecFaultsExactly :
    exec (.lw 5 1 2#12) (wide 0) = .fault (.misalignedAccess 2#32 4 0x100#32) ∧
    faultOf (wide 0) (.lw 5 1 2#12) = some (.misalignedAccess 2#32 4 0x100#32) ∧
    faultOf (wide 0) (.lw 5 1 4#12) = none := ⟨rfl, by decide, by decide⟩

theorem test_witness_OnlyTheEndOfARunIsRefused : ∃ s : State, s.cfg.haltPc = some s.pc ∧ step s = .refused .halted :=
  ⟨{ State.reset with cfg := { Config.reference with haltPc := some 0x100#32 } }, by decide, rfl⟩

theorem test_witness_OnlyBranchesMisalignPc : ∃ t, (coded 0x002081B3#32 []).pc.toNat % 4 = 0 ∧
    step (coded 0x002081B3#32 []) = .next t ∧ t.pc.toNat % 4 = 0 := ⟨_, by decide, nextOf_some rfl, by decide⟩

theorem test_witness_RegistersChangeOnlyAtDestination : ∃ t, exec (.add 3 1 2) (wide 0) = .next t ∧
    destOf (.add 3 1 2) ≠ some 4#5 := ⟨_, rfl, by decide⟩

theorem test_witness_OnlyBranchAssignsPc : ∃ t, exec (.add 3 1 2) (wide 0) = .next t ∧
    ∀ rs1 rs2 imm, Instr.add 3 1 2 ≠ .psrfBranch rs1 rs2 imm := ⟨_, rfl, by simp⟩

theorem test_witness_SpecialFilesWrittenOnlyByTheirOwn : ∃ t, exec (.sw 2 1 0#12) (wide 0) = .next t ∧
    writesPsrf (.sw 2 1 0#12) = false ∧ writesCorf (.sw 2 1 0#12) = false := ⟨_, rfl, by decide⟩

theorem test_witness_BytesChangeOnlyWhereStored : ∃ t, exec (.sw 2 1 0#12) (wide 0) = .next t ∧
    ∀ acc, accessOf (wide 0) (.sw 2 1 0#12) = some acc → acc.isStore = true → 4#32 ∉ accessed acc.addr acc.size :=
  ⟨_, rfl, fun acc h _ => by cases Option.some.inj h; decide⟩

/-- A byte of CODE, and a byte outside MEM. -/
theorem test_witness_StepKeepsCodeAndNonMemory : ∃ t, step (coded 0x002081B3#32 [⟨0x100, 4⟩]) = .next t ∧
    (coded 0x002081B3#32 [⟨0x100, 4⟩]).inCode 0x103#32 = true ∧
    (∃ u, step (regs 0x002081B3#32 []) = .next u ∧ (regs 0x002081B3#32 []).inMem 0x104#32 = false) :=
  ⟨_, nextOf_some rfl, by decide, ⟨_, nextOf_some rfl, by decide⟩⟩

/-- An instruction without a data access, and a psrf.lw whose selected values are different and have one sum. -/
theorem test_witness_SpecialFilesSeenOnlyThroughAddresses :
    (∃ t u, SameButSpecialFiles small u ∧ small.psrf ≠ u.psrf ∧
      accessOf small (.ppsrfAddi 1 0 4#12) = accessOf u (.ppsrfAddi 1 0 4#12) ∧
      exec (.ppsrfAddi 1 0 4#12) small = .next t) ∧
    (∃ t u, SameButSpecialFiles State.reset u ∧ State.reset.psrf ≠ u.psrf ∧
      accessOf State.reset (.psrfLw 5 0 0#12) = accessOf u (.psrfLw 5 0 0#12) ∧
      exec (.psrfLw 5 0 0#12) State.reset = .next t) :=
  ⟨⟨_, { small with psrf := [⟨0#32, 6#5⟩, ⟨0#32, 7#5⟩] }, ⟨rfl, rfl, rfl, rfl, rfl, rfl⟩, by decide, rfl, rfl⟩,
   ⟨_, (State.reset.setPsVal 0 4#32).setPsVal 1 0xFFFFFFFC#32, ⟨rfl, rfl, rfl, rfl, rfl, rfl⟩, by decide, by decide,
     rfl⟩⟩

/-- CODE is the word at 0x100 and MEM is everything: the state is valid, and the store of 4 bytes at 0x100 touches
CODE. -/
theorem test_witness_StoreIntoCodeFaults : ∃ (s : State) (i : Instr) (acc : Access), s.cfg.Valid ∧
    accessOf s i = some acc ∧ acc.isStore = true ∧ reservedOf s i = none ∧ acc.addr.toNat % acc.size = 0 ∧
    (∃ b ∈ accessed acc.addr acc.size, s.inCode b = true) ∧
    (∀ b ∈ accessed acc.addr acc.size, s.inCode b = false → s.inMem b = true) :=
  ⟨coded 0x002081B3#32 [⟨0x103, 1⟩], .sw 2 0 0x100#12, ⟨0x100#32, 4, true⟩,
   ⟨by decide, by decide, fun a _ => ⟨⟨0, 4294967296⟩, by decide, by simp, by simpa using a.isLt⟩⟩, rfl, rfl, rfl,
   by decide, ⟨0x103#32, by decide, by decide⟩, fun b hb _ => in_mem (by decide) b hb⟩

/-- CODE outside MEM is refused as a configuration. -/
theorem test_valid_refuses_code_outside_mem :
    ¬ ({ Config.reference with memMap := [⟨0x100, 4⟩], codeMap := [⟨0x104, 1⟩] } : Config).Valid := by
  rintro ⟨-, -, h⟩
  obtain ⟨r, hr, h1, h2⟩ := h 0x104#32 ⟨_, List.mem_singleton.2 rfl, by decide, by decide⟩
  cases List.mem_singleton.1 hr
  exact absurd h2 (by decide)

/-- A store that goes on, with program text in CODE. -/
theorem test_witness_StepKeepsInvariant : ∃ s t : State, s.Inv ∧ step s = .next t :=
  ⟨coded 0x0020A423#32 [⟨0x100, 4⟩], _, ⟨by decide, by decide, by decide, by decide,
    ⟨by decide, by decide, fun a _ => ⟨⟨0, 4294967296⟩, by decide, by simp, by simpa using a.isLt⟩⟩, by decide⟩,
    nextOf_some rfl⟩

theorem test_witness_ResetMeetsInvariant : Config.reference.Valid ∧ Config.reference.resetPc.toNat % 2 = 0 :=
  ⟨⟨by decide, by decide, by simp [Config.CodeInMem, Config.reference]⟩, by decide⟩

theorem test_witness_RunKeepsProgramText : ∃ t,
    Host.Core.run Sys2Proof.core 1 (coded 0x002081B3#32 [⟨0x100, 4⟩]) = .next t ∧
    (coded 0x002081B3#32 [⟨0x100, 4⟩]).inCode 0x100#32 = true := ⟨_, nextOf_some rfl, by decide⟩

end Sys2Proof.Tests
end

/-! PROOFS of the statements on the state and the step (spec 10_state.md): what a step runs or stops with, what executing
an instruction leaves in each field, the invariant, and what the special files can influence. -/

namespace Sys2Proof

/-! ### A decoded word is a well-formed instruction (R59) -/

theorem decodeLoad_wellFormed {w : Word} {i : Instr} (h : decodeLoad w = .ok i) : i.wellFormed = true := by
  unfold decodeLoad at h
  split_ifs at h <;> cases h <;> rfl

theorem decodeStore_wellFormed {w : Word} {i : Instr} (h : decodeStore w = .ok i) : i.wellFormed = true := by
  unfold decodeStore at h
  split_ifs at h <;> cases h <;> rfl

theorem decodeArithImm_wellFormed {w : Word} {i : Instr} (h : decodeArithImm w = .ok i) : i.wellFormed = true := by
  unfold decodeArithImm at h
  split_ifs at h <;> cases h <;> rfl

theorem decodeArith_wellFormed {w : Word} {i : Instr} (h : decodeArith w = .ok i) : i.wellFormed = true := by
  unfold decodeArith at h
  split_ifs at h <;> cases h <;> rfl

theorem decodeFileAddi_wellFormed {w : Word} {i : Instr} (h : decodeFileAddi w = .ok i) : i.wellFormed = true := by
  unfold decodeFileAddi at h
  split_ifs at h <;> cases h <;> rfl

theorem decodePsrfAddi_wellFormed {w : Word} {i : Instr} (h : decodePsrfAddi w = .ok i) : i.wellFormed = true := by
  unfold decodePsrfAddi at h
  split_ifs at h
  cases h
  rfl

theorem decodeOneFunct3_wellFormed {f : BitVec 3} {w : Word} {i j : Instr} (hj : j.wellFormed = true)
    (h : decodeOneFunct3 f j w = .ok i) : i.wellFormed = true := by
  unfold decodeOneFunct3 at h
  split_ifs at h
  cases h
  exact hj

/-- A choice between two decoders gives well-formed instructions if both do. -/
theorem wellFormed_of_ite {c : Prop} [Decidable c] {x y : Except Reject Instr} {i : Instr}
    (hx : x = .ok i → i.wellFormed = true) (hy : y = .ok i → i.wellFormed = true)
    (h : (if c then x else y) = .ok i) : i.wellFormed = true := by
  split at h
  · exact hx h
  · exact hy h

/-- Whatever decodes is well-formed, opcode by opcode; the one check there is, on the offset of psrf.branch, holds of
`fImmB`. -/
theorem decodeWord_wellFormed {w : Word} {i : Instr} (h : decodeWord w = .ok i) : i.wellFormed = true := by
  unfold decodeWord at h
  revert h
  refine wellFormed_of_ite decodeLoad_wellFormed <| wellFormed_of_ite (decodeOneFunct3_wellFormed rfl) <|
    wellFormed_of_ite decodeArithImm_wellFormed <| wellFormed_of_ite decodeFileAddi_wellFormed <|
    wellFormed_of_ite decodePsrfAddi_wellFormed <| wellFormed_of_ite ?auipc <|
    wellFormed_of_ite decodeStore_wellFormed <| wellFormed_of_ite (decodeOneFunct3_wellFormed rfl) <|
    wellFormed_of_ite decodeArith_wellFormed <| wellFormed_of_ite ?lui <| wellFormed_of_ite ?corfLui <|
    wellFormed_of_ite (decodeOneFunct3_wellFormed ?branch) ?unknown
  case branch => simp only [Instr.wellFormed, fImmB_even, Bool.not_false]
  case unknown => nofun
  all_goals
    intro h
    cases h
    rfl

/-- Decoding the bytes of a word is decoding the word: they are put together again little-endian (R31). -/
theorem decodeBytes_wordBytes (w : Word) : decodeBytes (wordBytes w) = (decodeWord w).map fun i => (i, []) := by
  rw [wordBytes, decodeBytes, bytes_word]
  cases decodeWord w <;> rfl

theorem decodeTableWord_eq_some {nbits w : Nat} {i : Instr} (h : decodeTableWord nbits w = some i) :
    decodeWord (tableWord nbits w) = .ok i := by
  rw [decodeTableWord, decodeBytes_wordBytes] at h
  cases hd : decodeWord (tableWord nbits w) with
  | ok j => simpa [hd, Except.map] using h
  | error e => simp [hd, Except.map] at h

end Sys2Proof

namespace Sys2Proof.Machine

/-! ### The step, by what the fetch answers (R14) -/

theorem step_of_fetch_next {s : State} {i : Instr} (h : s.fetch = .next i) : step s = exec i s := by
  unfold step; rw [h]

theorem step_of_fetch_fault {s : State} {f : Fault} (h : s.fetch = .fault f) : step s = .fault f := by
  unfold step; rw [h]

theorem step_of_fetch_refused {s : State} {r : Refusal} (h : s.fetch = .refused r) : step s = .refused r := by
  unfold step; rw [h]

/-- A step that goes on has fetched an instruction that decodes and is well-formed, and executed it. -/
theorem step_eq_next {s t : State} (h : step s = .next t) :
    ∃ i, s.fetch = .next i ∧ i.wellFormed = true ∧ exec i s = .next t := by
  cases hf : s.fetch with
  | next i =>
    obtain ⟨-, -, -, hd⟩ := (s.fetch_eq_next i).1 hf
    exact ⟨i, rfl, decodeWord_wellFormed hd, step_of_fetch_next hf ▸ h⟩
  | fault f => rw [step_of_fetch_fault hf] at h; cases h
  | refused r => rw [step_of_fetch_refused hf] at h; cases h

/-! ### The other answers of a fetch (R35, R38, R63, R202, R232) -/

theorem State.fetch_of_halted {s : State} (h : s.cfg.haltPc = some s.pc) : s.fetch = .refused .halted := by
  simp [State.fetch, h]

theorem State.fetch_of_misaligned {s : State} (h : s.cfg.haltPc ≠ some s.pc) (ha : s.pc.toNat % 4 ≠ 0) :
    s.fetch = .fault (.misalignedFetch s.pc) := by
  simp [State.fetch, h, ha]

theorem State.fetch_of_outside {s : State} (h : s.cfg.haltPc ≠ some s.pc) (ha : s.pc.toNat % 4 = 0)
    (hm : ∃ b ∈ accessed s.pc 4, s.inMem b = false) : s.fetch = .fault (.fetchAccess s.pc) := by
  have hm : (accessed s.pc 4).all s.inMem = false := by simpa using hm
  simp [State.fetch, h, ha, hm]

theorem State.fetch_of_illegal {s : State} {e : Reject} (h : s.cfg.haltPc ≠ some s.pc) (ha : s.pc.toNat % 4 = 0)
    (hm : ∀ b ∈ accessed s.pc 4, s.inMem b = true) (hd : decodeWord s.fetchWord = .error e) :
    s.fetch = .fault (.illegalInstruction s.fetchWord s.pc) := by
  have hm : (accessed s.pc 4).all s.inMem = true := by simpa using hm
  simp [State.fetch, h, ha, hm, hd]

/-- A fetch is refused at HALT_PC only. -/
theorem State.fetch_eq_refused (s : State) (r : Refusal) :
    s.fetch = .refused r ↔ r = .halted ∧ s.cfg.haltPc = some s.pc := by
  constructor
  · intro h
    by_cases hh : s.cfg.haltPc = some s.pc
    · rw [State.fetch_of_halted hh] at h
      cases h
      exact ⟨rfl, hh⟩
    · unfold State.fetch at h
      rw [if_neg hh] at h
      split_ifs at h
      split at h <;> cases h
  · rintro ⟨rfl, hh⟩
    exact State.fetch_of_halted hh

/-- The word fetched, byte by byte, the lowest address in its low byte (R31). -/
theorem State.fetchWord_eq_bytes (s : State) :
    s.fetchWord = s.byte (s.pc + 3#32) ++ s.byte (s.pc + 2#32) ++ s.byte (s.pc + 1#32) ++ s.byte s.pc :=
  Memory.readBytes_four s.mem s.pc

/-! ### No instruction is refused (D29) -/

theorem exec_ne_refused (i : Instr) (s : State) (r : Refusal) : exec i s ≠ .refused r := by
  cases i with
  | psrfLw rd rs1 var =>
    simp only [exec, execPsrfLw]
    split
    · simp [State.raise]
    · exact s.load_ne_refused _ _ _ _ r
  | psrfSw rs2 rs1 var =>
    simp only [exec, execPsrfSw]
    split
    · simp [State.raise]
    · exact s.store_ne_refused _ _ _ r
  | corfLui | corfAddi | ppsrfAddi =>
    simp only [exec, execCorfLui, execCorfAddi, execPpsrfAddi, State.raise]
    split_ifs <;> nofun
  | lb | lh | lw | lbu | lhu => exact s.load_ne_refused _ _ _ _ r
  | sb | sh | sw => exact s.store_ne_refused _ _ _ r
  | psrfAddi | psrfBranch => nofun
  | add | sub | sll | slt | sltu | xor | srl | sra | or | and => nofun
  | addi | slli | slti | sltiu | xori | srli | srai | ori | andi | lui | auipc => nofun

/-! ### What executing an instruction leaves in each field of the state -/

section
variable {i : Instr} {s t : State}

/-- No instruction changes the configuration. -/
theorem exec_cfg (h : exec i s = .next t) : t.cfg = s.cfg := by
  cases exec_shape h <;> subst t <;> simp

/-- `pc` moves by 4, or a taken psrf.branch adds its offset (R14, R15). -/
theorem exec_pc (h : exec i s = .next t) :
    t.pc = s.pc + 4#32 ∨ ∃ rs1 rs2 imm, i = .psrfBranch rs1 rs2 imm ∧
      Config.psrfBranchCond (s.reg rs1) (s.reg rs2) = true ∧ t.pc = s.pc + immB imm := by
  cases exec_shape h with
  | branch rs1 rs2 imm hi ht =>
    cases hc : Config.psrfBranchCond (s.reg rs1) (s.reg rs2) with
    | true => exact .inr ⟨rs1, rs2, imm, hi, hc, by rw [ht, hc]; rfl⟩
    | false => exact .inl (by rw [ht, hc]; rfl)
  | reg | store | stepTagged | corf | psrf => subst t; exact .inl (by simp)

/-- A register that is not the destination reads as before (R12). -/
theorem exec_reg (h : exec i s = .next t) {r : Reg} (hr : destOf i ≠ some r) : t.reg r = s.reg r := by
  cases exec_shape h with
  | reg rd v hd hp hc hs ht =>
    have hne : r ≠ rd := fun e => hr (e ▸ hd)
    simp [ht, State.reg_setReg, hne]
  | stepTagged d imm hi ht =>
    have hne : r ≠ d := fun e => hr (by rw [hi, e]; rfl)
    simp [ht, State.reg_setReg, hne]
  | store | branch | corf | psrf => subst t; simp

/-- The psrf as a whole changes by its own three instructions only (R19). -/
theorem exec_psrf (h : exec i s = .next t) (hi : writesPsrf i = false) : t.psrf = s.psrf := by
  cases exec_shape h with
  | stepTagged d imm e => subst e; cases hi
  | branch rs1 rs2 imm e => subst e; cases hi
  | psrf k v hd hp => rw [hp] at hi; cases hi
  | reg | store | corf => subst t; simp

/-- The corf as a whole changes by its own two instructions only (R18). -/
theorem exec_corf (h : exec i s = .next t) (hi : writesCorf i = false) : t.corf = s.corf := by
  cases exec_shape h with
  | corf k v hd hp hc => rw [hc] at hi; cases hi
  | reg | store | stepTagged | branch | psrf => subst t; simp

@[simp] theorem State.branch_tags (s : State) (b : Bool) (t : Reg) (imm : BitVec 13) :
    (s.branch b t imm).psrf.map PsrfEntry.tag = s.psrf.map PsrfEntry.tag := by
  cases b with
  | true => rfl
  | false => exact s.updateTagged_tags t fun _ _ => 0#32

/-- No instruction changes a tag (R17). -/
theorem exec_tags (h : exec i s = .next t) : t.psrf.map PsrfEntry.tag = s.psrf.map PsrfEntry.tag := by
  cases exec_shape h <;> subst t <;> simp

/-- No instruction changes the number of corf entries (R18). -/
theorem exec_corf_length (h : exec i s = .next t) : t.corf.length = s.corf.length := by
  cases exec_shape h with
  | corf k v => subst t; exact s.setCo_nco k v
  | reg | store | stepTagged | branch | psrf => subst t; simp

/-- Memory is as before, or a store wrote the bytes of its access, which lie in MEM and not in CODE (R34, R42). -/
theorem exec_mem (h : exec i s = .next t) :
    t.mem = s.mem ∨ ∃ (a : Word) (n w : Nat) (v : BitVec w), accessOf s i = some ⟨a, n, true⟩ ∧
      (∀ b ∈ accessed a n, s.inMem b = true) ∧ (∀ b ∈ accessed a n, s.inCode b = false) ∧
      t.mem = s.mem.writeBytes a v n := by
  cases exec_shape h with
  | store a n w v hd hp hc ha hm hx ht => exact .inr ⟨a, n, w, v, ha, hm, hx, by rw [ht]; rfl⟩
  | reg | stepTagged | branch | corf | psrf => subst t; exact .inl (by simp)

end

/-! ### Every part of the invariant is kept -/

theorem State.inMem_congr {s t : State} (h : t.cfg = s.cfg) (a : Word) : t.inMem a = s.inMem a := by
  unfold State.inMem; rw [h]

/-- Memory stays canonical and inside MEM (R34, R38). -/
theorem exec_mem_inv {i : Instr} {s t : State} (h : exec i s = .next t) (hwf : s.mem.wf = true)
    (hin : ∀ c ∈ s.mem, s.inMem (BitVec.ofNat 32 c.1) = true) :
    t.mem.wf = true ∧ ∀ c ∈ t.mem, s.inMem (BitVec.ofNat 32 c.1) = true := by
  rcases exec_mem h with ht | ⟨a, n, w, v, -, hm, -, ht⟩
  · rw [ht]
    exact ⟨hwf, hin⟩
  · rw [ht]
    refine ⟨Memory.wf_writeBytes _ a v n hwf, fun c hc => ?_⟩
    rcases Memory.mem_writeBytes _ a v n c hc with ⟨b, hb, hcb⟩ | hc
    · rw [hcb]
      simpa using hm b hb
    · exact hin c hc

/-- The sign extension of an even offset is even (R59). -/
theorem immB_even {imm : BitVec 13} (h : imm.getLsbD 0 = false) : (immB imm).toNat % 2 = 0 := by
  have hb : (immB imm).getLsbD 0 = false := by
    rw [immB, BitVec.getLsbD_signExtend]
    simpa using h
  simpa [BitVec.getLsbD] using hb

/-- An even `pc` stays even: 4 is, and so is the offset of a well-formed psrf.branch (R13, R59). -/
theorem exec_pc_even {i : Instr} {s t : State} (h : exec i s = .next t) (hw : i.wellFormed = true)
    (hs : s.pc.toNat % 2 = 0) : t.pc.toNat % 2 = 0 := by
  rcases exec_pc h with ht | ⟨rs1, rs2, imm, rfl, -, ht⟩
  · rw [ht, BitVec.toNat_add, BitVec.toNat_ofNat]
    omega
  · have himm : (immB imm).toNat % 2 = 0 := immB_even (by simpa [Instr.wellFormed] using hw)
    rw [ht, BitVec.toNat_add]
    omega

theorem exec_keeps_inv {i : Instr} {s t : State} (h : exec i s = .next t) (hw : i.wellFormed = true) (hs : s.Inv) :
    t.Inv := by
  obtain ⟨hwf, hin, htags, hcorf, hvalid, hpc⟩ := hs
  obtain ⟨hwf', hin'⟩ := exec_mem_inv h hwf hin
  have hcfg := exec_cfg h
  refine ⟨hwf', fun c hc => ?_, ?_, ?_, ?_, exec_pc_even h hw hpc⟩
  · rw [State.inMem_congr hcfg]
    exact hin' c hc
  · rw [exec_tags h, hcfg, htags]
  · rw [exec_corf_length h, hcfg, hcorf]
  · rwa [hcfg]

/-- Settles O54: a step executes a well-formed instruction, and executing one keeps every part of the invariant. -/
theorem stepKeepsInvariant : Obligations.StepKeepsInvariant := by
  intro s t hs h
  obtain ⟨i, -, hw, hexec⟩ := step_eq_next h
  exact exec_keeps_inv hexec hw hs

/-! ### Reset -/

/-- The reference configuration meets the spec's constraints; its CODE is empty. -/
theorem reference_valid : Config.reference.Valid := by
  refine ⟨by decide, by decide, fun a ⟨r, hr, _⟩ => ?_⟩
  cases hr

/-- The state after reset has no byte of memory listed, the tags and the number of corf entries its configuration
gives, and `pc` at RESET_PC (R24, R230). -/
theorem resetWith_inv {c : Config} (hc : c.Valid) (hpc : c.resetPc.toNat % 2 = 0) : (State.resetWith c).Inv := by
  have htags : (State.resetWith c).psrf.map PsrfEntry.tag = c.psrfTagInit := by
    simp [State.resetWith, Function.comp_def]
  have hcorf : (State.resetWith c).corf.length = c.nco := by simp [State.resetWith]
  exact ⟨State.resetWith_mem_wf c, nofun, htags, hcorf, hc, hpc⟩

/-- Settles O55: the reference configuration is one of the valid ones with an even RESET_PC. -/
theorem resetMeetsInvariant : Obligations.ResetMeetsInvariant :=
  ⟨resetWith_inv reference_valid (by decide), fun _ => resetWith_inv⟩

/-! ### The step -/

/-- Settles O9: a placed word is the one fetched, in every state. -/
theorem placedInstructionRuns : Obligations.PlacedInstructionRuns := by
  intro s nbits w i h
  exact step_of_fetch_next (s.fetch_placeWord _ i (decodeTableWord_eq_some h))

/-- Settles O7: the four bytes at `pc` are the word fetched. -/
theorem stepRunsDecodedInstruction : Obligations.StepRunsDecodedInstruction := by
  intro s i hh ha h0 h1 h2 h3 hd
  have hm : ∀ b ∈ accessed s.pc 4, s.inMem b = true := by simp [accessed_four, h0, h1, h2, h3]
  exact ⟨decodeWord_wellFormed hd,
    step_of_fetch_next ((s.fetch_eq_next i).2 ⟨hh, ha, hm, s.fetchWord_eq_bytes ▸ hd⟩)⟩

/-- Settles O8: one clause for each answer of the fetch that is no instruction. -/
theorem stepStopsBeforeExecuting : Obligations.StepStopsBeforeExecuting := by
  intro s
  refine ⟨fun hh => ?_, fun hh ha => ?_, fun hh ha hm => ?_, fun hh ha hm w e hw hd => ?_⟩
  · exact step_of_fetch_refused (State.fetch_of_halted hh)
  · exact step_of_fetch_fault (State.fetch_of_misaligned hh ha)
  · exact step_of_fetch_fault (State.fetch_of_outside hh ha hm)
  · rw [← s.fetchWord_eq_bytes] at hw
    subst hw
    exact step_of_fetch_fault (State.fetch_of_illegal hh ha hm hd)

/-- Settles O46: executing is never refused, so a refused step is a refused fetch. -/
theorem onlyTheEndOfARunIsRefused : Obligations.OnlyTheEndOfARunIsRefused := by
  refine ⟨exec_ne_refused, fun s r => ?_⟩
  rw [← s.fetch_eq_refused r]
  refine ⟨fun h => ?_, step_of_fetch_refused⟩
  cases hf : s.fetch with
  | next i => exact absurd (step_of_fetch_next hf ▸ h) (exec_ne_refused i s r)
  | fault f => rw [step_of_fetch_fault hf] at h; cases h
  | refused q => rw [step_of_fetch_refused hf] at h; cases h; rfl

/-! ### Frames of all instructions -/

/-- Settles O48, from the shapes of a next state. -/
theorem registersChangeOnlyAtDestination : Obligations.RegistersChangeOnlyAtDestination :=
  fun _ _ _ h _ hr => exec_reg h hr

/-- Settles O49: the other way `pc` can move belongs to a psrf.branch. -/
theorem onlyBranchAssignsPc : Obligations.OnlyBranchAssignsPc := by
  intro i s t h hi
  rcases exec_pc h with ht | ⟨rs1, rs2, imm, e, -⟩
  · apply BitVec.eq_of_toNat_eq
    simp [ht]
  · exact absurd e (hi rs1 rs2 imm)

/-- Settles O50, one clause for each field of the two files. -/
theorem specialFilesWrittenOnlyByTheirOwn : Obligations.SpecialFilesWrittenOnlyByTheirOwn :=
  fun _ _ _ h => ⟨exec_psrf h, exec_corf h, exec_tags h, exec_corf_length h⟩

/-- Settles O21: each of the three ends with one register written. -/
theorem xorSltuLuiFrame : Obligations.XorSltuLuiFrame := by
  intro s i rd rs1 rs2 imm hi
  have hv : ∃ v, exec i s = .next (s.setReg rd v).advance := by
    rcases hi with rfl | rfl | rfl <;> exact ⟨_, rfl⟩
  obtain ⟨v, hv⟩ := hv
  obtain ⟨-, -, hr, hframe⟩ := s.regResult_setReg rd v
  exact ⟨_, hv, State.reg_zero _, hr, hframe⟩

/-! ### The special files are seen through addresses only (R19)

Every update of the state, applied to two states that differ in the special files alone, leaves two such states; what
is written into the special files may differ. -/

namespace SameButSpecialFiles

variable {s u : State}

theorem regs (h : SameButSpecialFiles s u) : u.regs = s.regs := h.1
theorem pc (h : SameButSpecialFiles s u) : u.pc = s.pc := h.2.1
theorem mem (h : SameButSpecialFiles s u) : u.mem = s.mem := h.2.2.1
theorem cfg (h : SameButSpecialFiles s u) : u.cfg = s.cfg := h.2.2.2.1
theorem nps (h : SameButSpecialFiles s u) : u.nps = s.nps := h.2.2.2.2.1
theorem nco (h : SameButSpecialFiles s u) : u.nco = s.nco := h.2.2.2.2.2

theorem setReg (h : SameButSpecialFiles s u) (r : Reg) (v : Word) :
    SameButSpecialFiles (s.setReg r v) (u.setReg r v) := by
  refine ⟨?_, by simpa using h.2⟩
  unfold State.setReg
  split
  · exact h.regs
  · simp only [h.regs]

theorem setMem (h : SameButSpecialFiles s u) (m : Memory) :
    SameButSpecialFiles { s with mem := m } { u with mem := m } :=
  ⟨h.regs, h.pc, rfl, h.cfg, h.nps, h.nco⟩

theorem jump (h : SameButSpecialFiles s u) (a : Word) : SameButSpecialFiles (s.jump a) (u.jump a) :=
  ⟨h.regs, rfl, h.mem, h.cfg, h.nps, h.nco⟩

theorem advance (h : SameButSpecialFiles s u) : SameButSpecialFiles s.advance u.advance :=
  ⟨h.regs, congrArg (· + 4#32) h.pc, h.mem, h.cfg, h.nps, h.nco⟩

theorem setPsrf (h : SameButSpecialFiles s u) {p q : List PsrfEntry} (hp : p.length = s.psrf.length)
    (hq : q.length = u.psrf.length) : SameButSpecialFiles { s with psrf := p } { u with psrf := q } :=
  ⟨h.regs, h.pc, h.mem, h.cfg, hq.trans (h.nps.trans hp.symm), h.nco⟩

theorem updateTagged (h : SameButSpecialFiles s u) (t : Reg) (f g : Nat → Word → Word) :
    SameButSpecialFiles (s.updateTagged t f) (u.updateTagged t g) :=
  h.setPsrf (s.updateTagged_nps t f) (u.updateTagged_nps t g)

theorem setPsVal (h : SameButSpecialFiles s u) (k : Nat) (v w : Word) :
    SameButSpecialFiles (s.setPsVal k v) (u.setPsVal k w) :=
  h.setPsrf (s.setPsVal_nps k v) (u.setPsVal_nps k w)

theorem setCo (h : SameButSpecialFiles s u) (k : Nat) (v w : Word) :
    SameButSpecialFiles (s.setCo k v) (u.setCo k w) :=
  ⟨h.regs, h.pc, h.mem, h.cfg, h.nps, (u.setCo_nco k w).trans (h.nco.trans (s.setCo_nco k v).symm)⟩

theorem branch (h : SameButSpecialFiles s u) (b : Bool) (t : Reg) (imm : BitVec 13) :
    SameButSpecialFiles (s.branch b t imm) (u.branch b t imm) := by
  cases b with
  | true =>
    rw [State.branch_taken, State.branch_taken, h.pc]
    exact h.jump _
  | false => exact (h.updateTagged t _ _).advance

theorem reg (h : SameButSpecialFiles s u) (r : Reg) : u.reg r = s.reg r := by
  unfold State.reg
  rw [h.regs]

theorem ea (h : SameButSpecialFiles s u) (rs1 : Reg) (imm : BitVec 12) : u.ea rs1 imm = s.ea rs1 imm := by
  unfold State.ea
  rw [h.reg]

theorem shiftAmount (h : SameButSpecialFiles s u) (rs2 : Reg) : u.shiftAmount rs2 = s.shiftAmount rs2 := by
  unfold State.shiftAmount
  rw [h.reg]

theorem accessCheck (h : SameButSpecialFiles s u) (a : Word) (n : Nat) : u.accessCheck a n = s.accessCheck a n := by
  simp only [State.accessCheck, h.pc, funext (State.inMem_congr h.cfg)]

end SameButSpecialFiles

/-- If the first outcome goes on, so does the second, to a state that differs in the special files alone. -/
def Follows (o o' : Host.Outcome State Fault Refusal) : Prop :=
  ∀ t, o = .next t → ∃ v, o' = .next v ∧ SameButSpecialFiles t v

theorem follows_next {t v : State} (h : SameButSpecialFiles t v) : Follows (.next t) (.next v) := by
  intro t' e
  cases e
  exact ⟨v, rfl, h⟩

/-- A check in front of two outcomes, which holds of both states or of neither. -/
theorem Follows.guard {o o' : Host.Outcome State Fault Refusal} {P P' : Prop} [Decidable P] [Decidable P']
    {s s' : State} {f f' : Word → Fault} (h : Follows o o') (hP : P' ↔ P) :
    Follows (if P then s.raise f else o) (if P' then s'.raise f' else o') := by
  intro t ht
  split at ht
  · simp [State.raise] at ht
  · next hn =>
    rw [if_neg (hP.not.2 hn)]
    exact h t ht

section
variable {s u : State}

theorem follows_finishReg (h : SameButSpecialFiles s u) {rd : Reg} {v : Word} :
    Follows (s.finishReg rd v) (u.finishReg rd v) :=
  follows_next (h.setReg rd v).advance

theorem follows_load (h : SameButSpecialFiles s u) {rd : Reg} {a : Word} {n : Nat} {ext : BitVec (8 * n) → Word} :
    Follows (s.load rd a n ext) (u.load rd a n ext) := by
  intro t ht
  obtain ⟨hok, rfl⟩ := (s.load_eq_next t rd a n ext).1 ht
  refine ⟨_, u.load_of_admitted rd a n ext (h.accessCheck a n ▸ hok), ?_⟩
  rw [h.mem]
  exact (h.setReg rd _).advance

theorem follows_store (h : SameButSpecialFiles s u) {a : Word} {n w : Nat} {v : BitVec w} :
    Follows (s.store a n v) (u.store a n v) := by
  intro t ht
  obtain ⟨hok, hx, rfl⟩ := (s.store_eq_next t a n v).1 ht
  have hx' : ∀ b ∈ accessed a n, u.inCode b = false := by
    simpa only [State.inCode, h.cfg] using hx
  refine ⟨_, u.store_of_admitted a n v (h.accessCheck a n ▸ hok) hx', ?_⟩
  rw [h.mem]
  exact (h.setMem _).advance

/-- The operands of an instruction are the same in both states, but for the address of psrf.lw and psrf.sw, which the
hypothesis on the accesses makes the same. -/
theorem follows_exec {i : Instr} (h : SameButSpecialFiles s u) (ha : accessOf s i = accessOf u i) :
    Follows (exec i s) (exec i u) := by
  cases i with
  | psrfLw rd rs1 var =>
    have haddr : u.psrfAddr rs1 var = s.psrfAddr rs1 var := by simpa [accessOf] using ha.symm
    simp only [exec, execPsrfLw, haddr]
    exact (follows_load h).guard Iff.rfl
  | psrfSw rs2 rs1 var =>
    have haddr : u.psrfAddr rs1 var = s.psrfAddr rs1 var := by simpa [accessOf] using ha.symm
    simp only [exec, execPsrfSw, haddr, h.reg]
    exact (follows_store h).guard Iff.rfl
  | psrfAddi d imm =>
    simp only [exec, execPsrfAddi, h.reg]
    exact follows_next ((h.setReg ..).updateTagged ..).advance
  | psrfBranch rs1 rs2 imm =>
    simp only [exec, execPsrfBranch, h.reg, State.branchTag_congr h.cfg]
    exact follows_next (h.branch ..)
  | corfLui cd imm => exact (follows_next (h.setCo ..).advance).guard (by rw [h.nco])
  | corfAddi cd cs imm =>
    exact ((follows_next (h.setCo ..).advance).guard (by rw [h.nco])).guard (by rw [h.nco])
  | ppsrfAddi pd ps imm =>
    exact ((follows_next (h.setPsVal ..).advance).guard (by rw [h.nps])).guard (by rw [h.nps])
  | lb | lh | lw | lbu | lhu =>
    simp only [exec, execLb, execLh, execLw, execLbu, execLhu, h.ea]
    exact follows_load h
  | sb | sh | sw =>
    simp only [exec, execSb, execSh, execSw, h.ea, h.reg]
    exact follows_store h
  | add | sub | sll | slt | sltu | xor | srl | sra | or | and =>
    simp only [exec, execAdd, execSub, execSll, execSlt, execSltu, execXor, execSrl, execSra, execOr, execAnd, h.reg,
      h.shiftAmount]
    exact follows_finishReg h
  | addi | slli | slti | sltiu | xori | srli | srai | ori | andi | lui | auipc =>
    simp only [exec, execAddi, execSlli, execSlti, execSltiu, execXori, execSrli, execSrai, execOri, execAndi, execLui,
      execAuipc, h.reg, h.pc]
    exact follows_finishReg h

end

/-- Settles O53, instruction by instruction in `follows_exec`. -/
theorem specialFilesSeenOnlyThroughAddresses : Obligations.SpecialFilesSeenOnlyThroughAddresses :=
  fun _ _ _ t h ha ht => follows_exec h ha t ht

end Sys2Proof.Machine

/-! PROOFS of the statements on memory (spec 20_memory.md): a read after a wide write, which bytes an instruction and a
step can change, a load after a store, and a store into program text. -/

namespace Sys2Proof.Machine

/-! ### Reads within a wide write (R31, R33, R34) -/

theorem Memory.readBytes_succ (m : Memory) (a : Word) (n : Nat) :
    m.readBytes a (n + 1) = m.readBytes (a + 1#32) n ++ m.byteAt a.toNat := rfl

/-- A field of a value as its higher part and its lowest byte, the way `Memory.readBytes` puts bytes together. -/
theorem field_eq_append_valueByte {w : Nat} (v : BitVec w) (k n : Nat) :
    (v.extractLsb' (8 * k) (8 * (n + 1)) : BitVec (8 * n + 8)) =
      v.extractLsb' (8 * (k + 1)) (8 * n) ++ valueByte v k := by
  apply BitVec.eq_of_getLsbD_eq
  intro i hi
  simp only [valueByte, BitVec.getLsbD_append, BitVec.getLsbD_extractLsb']
  by_cases h8 : i < 8
  · simp only [h8, hi, decide_true, Bool.true_and, if_true]
  · have e : 8 * (k + 1) + (i - 8) = 8 * k + i := by omega
    have hn : i - 8 < 8 * n := by omega
    simp only [h8, hi, hn, e, decide_true, Bool.true_and, if_false]

/-- `n` bytes read from byte `k` of a wide write on are that field of the value: the whole value for `k = 0`, and
little-endian within it. -/
theorem Memory.readBytes_writeBytes {w : Nat} (m : Memory) (a : Word) (v : BitVec w) {N : Nat} (hN : N ≤ 4294967296)
    (k n : Nat) (hk : k + n ≤ N) :
    (m.writeBytes a v N).readBytes (a + BitVec.ofNat 32 k) n = v.extractLsb' (8 * k) (8 * n) := by
  induction n generalizing k with
  | zero => exact (BitVec.eq_nil _).trans (BitVec.eq_nil _).symm
  | succ n ih =>
    have hnext : a + BitVec.ofNat 32 k + 1#32 = a + BitVec.ofNat 32 (k + 1) := by
      rw [BitVec.add_assoc, BitVec.ofNat_add]
    rw [Memory.readBytes_succ, hnext, ih (k + 1) (by omega), Memory.byteAt_writeBytes_inside m a v N k (by omega) hN]
    exact (field_eq_append_valueByte v k n).symm

/-- A zero-extended field as a number. -/
theorem zeroExtend_field {w : Nat} (v : BitVec w) (k n : Nat) :
    (v.extractLsb' k n).zeroExtend 32 = BitVec.ofNat 32 (v.toNat / 2 ^ k % 2 ^ n) := by
  apply BitVec.eq_of_toNat_eq
  simp only [BitVec.truncate_eq_setWidth, BitVec.toNat_setWidth, BitVec.toNat_ofNat, toNat_field]

/-! ### Which bytes an instruction, a step and a run can change (R34, R36 to R38, R42) -/

section
variable {i : Instr} {s t : State}

/-- A byte that changes is one the instruction stores to, in MEM and not in CODE. -/
theorem exec_byte_changed (h : exec i s = .next t) {b : Word} (hne : t.byte b ≠ s.byte b) :
    ∃ acc, accessOf s i = some acc ∧ acc.isStore = true ∧ b ∈ accessed acc.addr acc.size ∧ s.inMem b = true ∧
      s.inCode b = false := by
  unfold State.byte at hne
  rcases exec_mem h with ht | ⟨a, n, w, v, ha, hm, hx, ht⟩
  · exact absurd (by rw [ht]) hne
  · have hin : b ∈ accessed a n := by
      by_contra hout
      exact hne (by rw [ht, Memory.byteAt_writeBytes_outside s.mem a v n b hout])
    exact ⟨⟨a, n, true⟩, ha, rfl, hin, hm b hin, hx b hin⟩

/-- No step changes a byte of CODE or one outside MEM (R38, R42). -/
theorem step_byte_of_protected (h : step s = .next t) {b : Word} (hb : s.inCode b = true ∨ s.inMem b = false) :
    t.byte b = s.byte b := by
  obtain ⟨_, -, -, hexec⟩ := step_eq_next h
  by_contra hne
  obtain ⟨-, -, -, -, hm, hx⟩ := exec_byte_changed hexec hne
  rcases hb with hc | hn
  · simp [hx] at hc
  · simp [hm] at hn

theorem step_cfg (h : step s = .next t) : t.cfg = s.cfg := by
  obtain ⟨_, -, -, hexec⟩ := step_eq_next h
  exact exec_cfg hexec

theorem step_tags (h : step s = .next t) : t.psrf.map PsrfEntry.tag = s.psrf.map PsrfEntry.tag := by
  obtain ⟨_, -, -, hexec⟩ := step_eq_next h
  exact exec_tags hexec

theorem State.inCode_congr (h : t.cfg = s.cfg) (a : Word) : t.inCode a = s.inCode a := by
  unfold State.inCode; rw [h]

end

/-- A run of `n + 1` steps that goes on is a step and a run of `n` steps from there. -/
theorem run_succ_eq_next {M : Host.Core} {n : Nat} {s t : M.State} (h : M.run (n + 1) s = .next t) :
    ∃ u, M.step s = .next u ∧ M.run n u = .next t := by
  rw [Host.Core.run] at h
  cases hs : M.step s with
  | next u => exact ⟨u, rfl, by rwa [hs] at h⟩
  | fault f => rw [hs] at h; cases h
  | refused r => rw [hs] at h; cases h

/-- Settles O57, by induction on the number of steps; that no step changes the configuration keeps CODE the same set of
bytes along the run. -/
theorem runKeepsProgramText : Obligations.RunKeepsProgramText := by
  intro n
  induction n with
  | zero =>
    intro s t h
    cases h
    exact ⟨rfl, rfl, fun _ _ => rfl⟩
  | succ n ih =>
    intro s t h
    obtain ⟨u, hstep, hrun⟩ := run_succ_eq_next h
    obtain ⟨hcfg, htags, hbytes⟩ := ih u t hrun
    refine ⟨hcfg.trans (step_cfg hstep), htags.trans (step_tags hstep), fun b hb => ?_⟩
    have hcode : u.inCode b = true := by rwa [State.inCode_congr (step_cfg hstep)]
    exact (hbytes b hcode).trans (step_byte_of_protected hstep (.inl hb))

/-- Settles O51: a byte that changed would be one of those stored to. -/
theorem bytesChangeOnlyWhereStored : Obligations.BytesChangeOnlyWhereStored := by
  intro i s t b h hb
  by_contra hne
  obtain ⟨acc, ha, hst, hin, -, -⟩ := exec_byte_changed h hne
  exact hb acc ha hst hin

/-- Settles O52, from the rule for one byte. -/
theorem stepKeepsCodeAndNonMemory : Obligations.StepKeepsCodeAndNonMemory :=
  fun _ _ h _ hb => step_byte_of_protected h hb

/-! ### A load after a store (R33, R34, R40) -/

/-- What a store that goes on has checked and done, as a later load sees it. -/
theorem State.store_next_fields {w : Nat} {s t : State} {a : Word} {N : Nat} {v : BitVec w}
    (h : s.store a N v = .next t) :
    a.toNat % N = 0 ∧ (∀ b ∈ accessed a N, t.inMem b = true) ∧ t.mem = s.mem.writeBytes a v N := by
  obtain ⟨hok, -, rfl⟩ := (s.store_eq_next t a N v).1 h
  obtain ⟨ha, hm⟩ := (s.accessCheck_eq_none a N).1 hok
  exact ⟨ha, hm, rfl⟩

/-- The addresses from byte `k` of an access on are among its addresses. -/
theorem mem_accessed_of_within {a b : Word} {k n N : Nat} (hk : k + n ≤ N)
    (hb : b ∈ accessed (a + BitVec.ofNat 32 k) n) : b ∈ accessed a N := by
  obtain ⟨j, hj, rfl⟩ := List.mem_map.1 hb
  have hj := List.mem_range.1 hj
  refine List.mem_map.2 ⟨k + j, List.mem_range.2 (by omega), ?_⟩
  rw [BitVec.ofNat_add, BitVec.add_assoc]

/-- After a store of `N` bytes, an aligned load of `n` bytes from byte `k` of it on completes, and its register reads
that field of the stored value. -/
theorem State.load_after_store {w : Nat} {s t : State} {a b : Word} {N k n : Nat} {v : BitVec w} {rd : Reg}
    (ext : BitVec (8 * n) → Word) (h : s.store a N v = .next t) (hN : N ≤ 4294967296) (hk : k + n ≤ N)
    (hb : b = a + BitVec.ofNat 32 k) (hal : b.toNat % n = 0) (hrd : rd ≠ 0#5) :
    ∃ u, t.load rd b n ext = .next u ∧ u.reg rd = ext (v.extractLsb' (8 * k) (8 * n)) := by
  subst hb
  obtain ⟨-, hm, hmem⟩ := State.store_next_fields h
  have hok : t.accessCheck (a + BitVec.ofNat 32 k) n = none :=
    (t.accessCheck_eq_none _ n).2 ⟨hal, fun c hc => hm c (mem_accessed_of_within hk hc)⟩
  refine ⟨_, t.load_of_admitted rd _ n ext hok, ?_⟩
  rw [State.reg_advance, State.reg_setReg, if_pos ⟨rfl, hrd⟩, hmem, Memory.readBytes_writeBytes s.mem a v hN k n hk]

/-- A load of the width and at the address of a store: it is aligned because the store was. -/
theorem State.load_same_after_store {w : Nat} {s t : State} {a b : Word} {n : Nat} {v : BitVec w} {rd : Reg}
    (ext : BitVec (8 * n) → Word) (h : s.store a n v = .next t) (hn : n ≤ 4294967296) (hb : b = a) (hrd : rd ≠ 0#5) :
    ∃ u, t.load rd b n ext = .next u ∧ u.reg rd = ext (v.extractLsb' 0 (8 * n)) := by
  subst hb
  exact State.load_after_store (k := 0) ext h hn (by omega) (by simp) (State.store_next_fields h).1 hrd

/-- The low field of a word, taken twice and zero-extended, is a remainder of the word. -/
theorem zeroExtend_low_field (x : Word) (n : Nat) :
    ((x.extractLsb' 0 n).extractLsb' 0 n).zeroExtend 32 = BitVec.ofNat 32 (x.toNat % 2 ^ n) := by
  rw [zeroExtend_field, toNat_field, pow_zero, Nat.div_one, Nat.div_one, Nat.mod_mod]

/-- Settles O30: the load reads the whole of what the store wrote. -/
theorem loadAfterStoreReturnsValue : Obligations.LoadAfterStoreReturnsValue := by
  intro s t rs2 rs1 rd rs imm off hrd hea
  refine ⟨fun h => ?_, fun h => ?_, fun h => ?_⟩
  · obtain ⟨u, hu, hv⟩ := State.load_same_after_store (fun v => v) h (by decide) hea hrd
    exact ⟨u, hu, hv.trans BitVec.extractLsb'_eq_self⟩
  · obtain ⟨u, hu, hv⟩ := State.load_same_after_store (fun v => v.zeroExtend 32) h (by decide) hea hrd
    exact ⟨u, hu, hv.trans (zeroExtend_low_field _ 16)⟩
  · obtain ⟨u, hu, hv⟩ := State.load_same_after_store (fun v => v.zeroExtend 32) h (by decide) hea hrd
    exact ⟨u, hu, hv.trans (zeroExtend_low_field _ 8)⟩

/-- Settles O31: the byte from byte 0 of the stored word on, and the halfword from byte 2 on; an address that is a
multiple of 4 is one of 2, and so is the one 2 above. -/
theorem mixedWidthLittleEndian : Obligations.MixedWidthLittleEndian := by
  intro s t rs2 rs1 rd rs imm off hrd h
  obtain ⟨hal, -, -⟩ := State.store_next_fields h
  refine ⟨fun hea => ?_, fun hea => ?_⟩
  · obtain ⟨u, hu, hv⟩ := State.load_after_store (k := 0) (n := 1) (fun v => v.zeroExtend 32) h (by decide) (by decide)
      (by simpa using hea) (Nat.mod_one _) hrd
    refine ⟨u, hu, hv.trans ?_⟩
    rw [zeroExtend_field]
    simp
  · have hal2 : (t.ea rs off).toNat % 2 = 0 := by
      rw [hea, BitVec.toNat_add, BitVec.toNat_ofNat]
      omega
    obtain ⟨u, hu, hv⟩ := State.load_after_store (k := 2) (n := 2) (fun v => v.zeroExtend 32) h (by decide) (by decide)
      hea hal2 hrd
    refine ⟨u, hu, hv.trans ?_⟩
    have hlt := (s.reg rs2).isLt
    rw [zeroExtend_field]
    exact congrArg (BitVec.ofNat 32) (Nat.mod_eq_of_lt (by omega))

/-! ### A store into program text (R34, R42) -/

/-- A store instruction without a reserved operand is the shared operation `store` at its access. -/
theorem exec_eq_store {i : Instr} {s : State} {acc : Access} (ha : accessOf s i = some acc) (hst : acc.isStore = true)
    (hr : reservedOf s i = none) : ∃ (w : Nat) (v : BitVec w), exec i s = s.store acc.addr acc.size v := by
  cases i with
  | sb | sh | sw =>
    cases ha
    exact ⟨_, _, rfl⟩
  | psrfSw rs2 rs1 var =>
    cases ha
    have hvar : ¬ nvar ≤ var.toNat := by simpa [reservedOf, nvar] using hr
    exact ⟨32, s.reg rs2, if_neg hvar⟩
  | lb | lh | lw | lbu | lhu | psrfLw =>
    cases ha
    cases hst
  | add | sub | sll | slt | sltu | xor | srl | sra | or | and => cases ha
  | addi | slli | slti | sltiu | xori | srli | srai | ori | andi | lui | auipc => cases ha
  | psrfAddi | psrfBranch | corfLui | corfAddi | ppsrfAddi => cases ha

/-- Settles O45: the bytes of CODE are in MEM too, so the checks before the one of CODE admit the store. -/
theorem storeIntoCodeFaults : Obligations.StoreIntoCodeFaults := by
  intro s i acc hvalid ha hst hr hal hcode hmem
  obtain ⟨w, v, hexec⟩ := exec_eq_store ha hst hr
  have hok : s.accessCheck acc.addr acc.size = none := by
    refine (s.accessCheck_eq_none _ _).2 ⟨hal, fun b hb => ?_⟩
    cases hc : s.inCode b with
    | true => exact State.inMem_of_inCode hvalid hc
    | false => exact hmem b hb hc
  rw [hexec, State.store_of_code s _ _ v hok hcode]

end Sys2Proof.Machine

/-! PROOFS of the statements on encoding (spec 30_encoding.md): decoding and encoding undo each other, the decodable
words are those the rows of R62 cover, no two rows overlap, and an instruction is four bytes. -/

namespace Sys2Proof

/-! ### Decoding an encoded instruction (R51 to R62) -/

/-- The word of an instruction goes back to it, opcode by opcode: the decoder of the opcode reads from the word the
fields its form was built of. Only the offset of psrf.branch needs the instruction to be well-formed (R59). -/
theorem decodeWord_encode {i : Instr} (h : i.wellFormed = true) : decodeWord (encode i) = .ok i := by
  cases i with
  | add | sub | sll | slt | sltu | xor | srl | sra | or | and => simp [encode, decodeWord, decodeArith]
  | addi | slli | slti | sltiu | xori | srli | srai | ori | andi => simp [encode, decodeWord, decodeArithImm]
  | lui | auipc | corfLui => simp [encode, decodeWord]
  | lb | lh | lw | lbu | lhu => simp [encode, decodeWord, decodeLoad]
  | sb | sh | sw => simp [encode, decodeWord, decodeStore]
  | psrfLw | psrfSw => simp [encode, decodeWord, decodeOneFunct3]
  | psrfAddi => simp [encode, decodeWord, decodePsrfAddi]
  | corfAddi | ppsrfAddi => simp [encode, decodeWord, decodeFileAddi]
  | psrfBranch rs1 rs2 imm =>
    have heven : imm.getLsbD 0 = false := by simpa [Instr.wellFormed] using h
    simp [encode, decodeWord, decodeOneFunct3, fImmB_formB _ _ _ _ _ heven]

/-- Settles O1: the decoder undoes the encoder on every well-formed instruction. -/
theorem decodeOfEncode : Obligations.DecodeOfEncode := fun _ h => decodeWord_encode h

/-! ### Encoding a decoded word (R51 to R56, R62)

A word is a form of its own fields, so it is the encoding of what it decodes to as soon as the fields an instruction
fixes have the values its row gives them. -/

section
variable {w : Word} {i : Instr} {f7 : BitVec 7} {f3 : BitVec 3} {op : BitVec 7}

theorem formR_of_fields (h7 : fFunct7 w = f7) (h3 : fFunct3 w = f3) (ho : fOpcode w = op) :
    formR f7 (fRs2 w) (fRs1 w) f3 (fRd w) op = w := by
  rw [← h7, ← h3, ← ho, formR_fields]

theorem formI_of_fields (h3 : fFunct3 w = f3) (ho : fOpcode w = op) :
    formI (fImmI w) (fRs1 w) f3 (fRd w) op = w := by
  rw [← h3, ← ho, formI_fields]

theorem formS_of_fields (h3 : fFunct3 w = f3) (ho : fOpcode w = op) :
    formS (fImmS w) (fRs2 w) (fRs1 w) f3 op = w := by
  rw [← h3, ← ho, formS_fields]

theorem formB_of_fields (h3 : fFunct3 w = f3) (ho : fOpcode w = op) :
    formB (fImmB w) (fRs2 w) (fRs1 w) f3 op = w := by
  rw [← h3, ← ho, formB_fields]

theorem formU_of_fields (ho : fOpcode w = op) : formU (fImmU w) (fRd w) op = w := by
  rw [← ho, formU_fields]

/-- The last case of a decoder that has an instruction for every funct3. -/
theorem funct3_eq_seven {f : BitVec 3} (h0 : f ≠ 0#3) (h1 : f ≠ 1#3) (h2 : f ≠ 2#3) (h3 : f ≠ 3#3) (h4 : f ≠ 4#3)
    (h5 : f ≠ 5#3) (h6 : f ≠ 6#3) : f = 7#3 := by
  bv_omega

theorem encode_of_decodeLoad (ho : fOpcode w = 0x03#7) (h : decodeLoad w = .ok i) : encode i = w := by
  unfold decodeLoad at h
  split_ifs at h <;> cases h <;> exact formI_of_fields ‹_› ho

theorem encode_of_decodeStore (ho : fOpcode w = 0x23#7) (h : decodeStore w = .ok i) : encode i = w := by
  unfold decodeStore at h
  split_ifs at h <;> cases h <;> exact formS_of_fields ‹_› ho

theorem encode_of_decodeArithImm (ho : fOpcode w = 0x13#7) (h : decodeArithImm w = .ok i) : encode i = w := by
  unfold decodeArithImm at h
  split_ifs at h with h0 h1 hslli h2 h3 h4 h5 hsrli hsrai h6 <;> cases h
  · exact formI_of_fields h0 ho
  · exact formR_of_fields hslli h1 ho
  · exact formI_of_fields h2 ho
  · exact formI_of_fields h3 ho
  · exact formI_of_fields h4 ho
  · exact formR_of_fields hsrli h5 ho
  · exact formR_of_fields hsrai h5 ho
  · exact formI_of_fields h6 ho
  · exact formI_of_fields (funct3_eq_seven h0 h1 h2 h3 h4 h5 h6) ho

theorem encode_of_decodeArith (ho : fOpcode w = 0x33#7) (h : decodeArith w = .ok i) : encode i = w := by
  unfold decodeArith at h
  split_ifs at h with h00 h0 h1 h2 h3 h4 h5 h6 h20 hsub hsra <;> cases h
  · exact formR_of_fields h00 h0 ho
  · exact formR_of_fields h00 h1 ho
  · exact formR_of_fields h00 h2 ho
  · exact formR_of_fields h00 h3 ho
  · exact formR_of_fields h00 h4 ho
  · exact formR_of_fields h00 h5 ho
  · exact formR_of_fields h00 h6 ho
  · exact formR_of_fields h00 (funct3_eq_seven h0 h1 h2 h3 h4 h5 h6) ho
  · exact formR_of_fields h20 hsub ho
  · exact formR_of_fields h20 hsra ho

theorem encode_of_decodeFileAddi (ho : fOpcode w = 0x14#7) (h : decodeFileAddi w = .ok i) : encode i = w := by
  unfold decodeFileAddi at h
  split_ifs at h <;> cases h <;> exact formI_of_fields ‹_› ho

/-- The one operand register stands in both register fields, which the decoder has found equal (D22). -/
theorem encode_of_decodePsrfAddi (ho : fOpcode w = 0x15#7) (h : decodePsrfAddi w = .ok i) : encode i = w := by
  unfold decodePsrfAddi at h
  split_ifs at h with h3 hrs
  cases h
  have hw : formI (fImmI w) (fRs1 w) 0#3 (fRd w) 0x15#7 = w := formI_of_fields h3 ho
  rwa [hrs] at hw

theorem encode_of_decodeOneFunct3 {j : Instr} (hj : fFunct3 w = f3 → encode j = w)
    (h : decodeOneFunct3 f3 j w = .ok i) : encode i = w := by
  unfold decodeOneFunct3 at h
  split_ifs at h with h3
  cases h
  exact hj h3

theorem encode_of_ite {c : Prop} [Decidable c] {x y : Except Reject Instr} (hx : c → x = .ok i → encode i = w)
    (hy : y = .ok i → encode i = w) (h : (if c then x else y) = .ok i) : encode i = w := by
  split at h
  case isTrue hc => exact hx hc h
  case isFalse => exact hy h

/-- A word is the encoding of what it decodes to, opcode by opcode. -/
theorem encode_of_decodeWord (h : decodeWord w = .ok i) : encode i = w := by
  unfold decodeWord at h
  revert h
  refine encode_of_ite encode_of_decodeLoad <|
    encode_of_ite (fun ho => encode_of_decodeOneFunct3 (formI_of_fields · ho)) <|
    encode_of_ite encode_of_decodeArithImm <| encode_of_ite encode_of_decodeFileAddi <|
    encode_of_ite encode_of_decodePsrfAddi <| encode_of_ite ?auipc <| encode_of_ite encode_of_decodeStore <|
    encode_of_ite (fun ho => encode_of_decodeOneFunct3 (formS_of_fields · ho)) <|
    encode_of_ite encode_of_decodeArith <| encode_of_ite ?lui <| encode_of_ite ?corfLui <|
    encode_of_ite (fun ho => encode_of_decodeOneFunct3 (formB_of_fields · ho)) ?unknown
  case unknown => nofun
  all_goals
    intro ho h
    cases h
    exact formU_of_fields ho
end

/-- Settles O2: every bit of a word that decodes is a fixed field or an operand. -/
theorem encodeOfDecode : Obligations.EncodeOfDecode := fun _ _ h => ⟨decodeWord_wellFormed h, encode_of_decodeWord h⟩

/-! ### The decodable words are the rows of R62 (R62, R63) -/

/-- The word of an instruction is legal: its row is in the table, and psrf.addi has one register for both fields. -/
theorem legalWord_encode (i : Instr) : legalWord (encode i) = true := by
  cases i with
  | add | sub | sll | slt | sltu | xor | srl | sra | or | and =>
    simp [encode, legalWord, opRows, arithRows, OpRow.covers]
  | addi | slli | slti | sltiu | xori | srli | srai | ori | andi | lui | auipc =>
    simp [encode, legalWord, opRows, arithImmRows, OpRow.covers]
  | lb | lh | lw | lbu | lhu | sb | sh | sw =>
    simp [encode, legalWord, opRows, memoryRows, OpRow.covers]
  | psrfLw | psrfSw | psrfAddi | psrfBranch | corfLui | corfAddi | ppsrfAddi =>
    simp [encode, legalWord, opRows, specialRows, OpRow.covers]

section
variable {w : Word} {op : BitVec 7} {f3 : BitVec 3} {f7 : BitVec 7} {r : OpRow}

theorem covers_opcode : OpRow.covers ⟨op, none, none⟩ w = true ↔ fOpcode w = op := by
  simp [OpRow.covers]

theorem covers_funct3 : OpRow.covers ⟨op, some f3, none⟩ w = true ↔ fOpcode w = op ∧ fFunct3 w = f3 := by
  simp [OpRow.covers]

theorem covers_funct7 :
    OpRow.covers ⟨op, some f3, some f7⟩ w = true ↔ fOpcode w = op ∧ fFunct3 w = f3 ∧ fFunct7 w = f7 := by
  simp [OpRow.covers, and_assoc]

theorem decodes_of_arithRow (hr : r ∈ arithRows) (hc : r.covers w = true) : ∃ i, decodeWord w = .ok i := by
  simp only [arithRows, List.mem_cons, List.not_mem_nil, or_false] at hr
  rcases hr with rfl | rfl | rfl | rfl | rfl | rfl | rfl | rfl | rfl | rfl <;>
    simp only [covers_funct7] at hc <;> simp [decodeWord, decodeArith, hc]

theorem decodes_of_arithImmRow (hr : r ∈ arithImmRows) (hc : r.covers w = true) : ∃ i, decodeWord w = .ok i := by
  simp only [arithImmRows, List.mem_cons, List.not_mem_nil, or_false] at hr
  rcases hr with rfl | rfl | rfl | rfl | rfl | rfl | rfl | rfl | rfl | rfl | rfl <;>
    simp only [covers_opcode, covers_funct3, covers_funct7] at hc <;> simp [decodeWord, decodeArithImm, hc]

theorem decodes_of_memoryRow (hr : r ∈ memoryRows) (hc : r.covers w = true) : ∃ i, decodeWord w = .ok i := by
  simp only [memoryRows, List.mem_cons, List.not_mem_nil, or_false] at hr
  rcases hr with rfl | rfl | rfl | rfl | rfl | rfl | rfl | rfl <;>
    simp only [covers_funct3] at hc <;> simp [decodeWord, decodeLoad, decodeStore, hc]

theorem decodes_of_specialRow (hr : r ∈ specialRows) (hc : r.covers w = true)
    (hregs : fOpcode w = 0x15#7 → fRs1 w = fRd w) : ∃ i, decodeWord w = .ok i := by
  simp only [specialRows, List.mem_cons, List.not_mem_nil, or_false] at hr
  rcases hr with rfl | rfl | rfl | rfl | rfl | rfl | rfl <;>
    simp only [covers_opcode, covers_funct3] at hc <;>
    simp [decodeWord, decodeOneFunct3, decodePsrfAddi, decodeFileAddi, hc, hregs]
end

theorem decodes_of_legalWord {w : Word} (h : legalWord w = true) : ∃ i, decodeWord w = .ok i := by
  simp only [legalWord, opRows, Bool.and_eq_true, List.any_eq_true, List.mem_append, Bool.or_eq_true, bne_iff_ne,
    beq_iff_eq] at h
  obtain ⟨⟨r, ((hr | hr) | hr) | hr, hc⟩, hregs⟩ := h
  · exact decodes_of_arithRow hr hc
  · exact decodes_of_arithImmRow hr hc
  · exact decodes_of_memoryRow hr hc
  · exact decodes_of_specialRow hr hc fun ho => hregs.resolve_left (not_not_intro ho)

/-- Settles O3: a word that decodes is the word of an instruction, hence legal, and each row of a legal word decodes. -/
theorem legalWordsAreTheRows : Obligations.LegalWordsAreTheRows := by
  refine fun w => ⟨fun ⟨i, hi⟩ => ?_, decodes_of_legalWord⟩
  rw [← encode_of_decodeWord hi]
  exact legalWord_encode i

/-! ### No two rows overlap (R62) -/

/-- There is a field both rows fix, and they fix it to different values. -/
def OpRow.clash (r q : OpRow) : Prop :=
  r.opcode ≠ q.opcode ∨ (∃ f ∈ r.funct3, ∃ g ∈ q.funct3, f ≠ g) ∨ ∃ f ∈ r.funct7, ∃ g ∈ q.funct7, f ≠ g

theorem OpRow.covers_iff (r : OpRow) (w : Word) : r.covers w = true ↔
    fOpcode w = r.opcode ∧ (∀ f ∈ r.funct3, fFunct3 w = f) ∧ ∀ f ∈ r.funct7, fFunct7 w = f := by
  simp [OpRow.covers, Option.all_eq_true, and_assoc]

/-- A word cannot have two values in one field. -/
theorem OpRow.clash.not_covers {r q : OpRow} (h : r.clash q) {w : Word} (hr : r.covers w = true) :
    q.covers w ≠ true := by
  rw [covers_iff] at hr
  rw [ne_eq, covers_iff]
  rintro ⟨ho, h3, h7⟩
  obtain ⟨ho', h3', h7'⟩ := hr
  obtain hne | ⟨f, hf, g, hg, hne⟩ | ⟨f, hf, g, hg, hne⟩ := h
  · exact hne (ho'.symm.trans ho)
  · exact hne ((h3' f hf).symm.trans (h3 g hg))
  · exact hne ((h7' f hf).symm.trans (h7 g hg))

theorem opRows_clash : opRows.Pairwise OpRow.clash := by
  unfold OpRow.clash
  decide

/-- Settles O4: any two rows of the table clash, so of the rows that cover one word there are no two. -/
theorem rowsDoNotOverlap : Obligations.RowsDoNotOverlap := by
  intro w
  have hclash := opRows_clash.filter fun r => r.covers w
  have hcov : ∀ r ∈ opRows.filter (fun r => r.covers w), r.covers w = true := fun _ hr => (List.mem_filter.1 hr).2
  generalize (opRows.filter fun r => r.covers w) = rows at *
  match rows with
  | [] | [_] => simp
  | r :: q :: _ =>
    have hrq : r.clash q := List.rel_of_pairwise_cons hclash List.mem_cons_self
    exact absurd (hcov q (by simp)) (hrq.not_covers (hcov r (by simp)))

/-! ### An instruction is four bytes (R50) -/

/-- The decoder puts the first four bytes together little-endian (R31) and hands the rest back. -/
theorem decodeBytes_wordBytes_append (w : Word) (rest : List Byte) :
    decodeBytes (wordBytes w ++ rest) = (decodeWord w).map fun i => (i, rest) := by
  simp only [wordBytes, List.cons_append, List.nil_append, decodeBytes, bytes_word]
  cases decodeWord w <;> rfl

theorem decodeBytes_truncated : ∀ {bs : List Byte}, bs.length < 4 → decodeBytes bs = .error .truncated
  | [], _ | [_], _ | [_, _], _ | [_, _, _], _ => rfl
  | _ :: _ :: _ :: _ :: _, h => by simp at h; omega

/-- Settles O5: four bytes are decoded as their word is, and fewer are truncated. -/
theorem everyInstructionIsFourBytes : Obligations.EveryInstructionIsFourBytes := by
  refine ⟨fun w i rest h => ?_, fun w e rest h => ?_, fun bs => decodeBytes_truncated⟩
  · rw [decodeBytes_wordBytes_append, h]; rfl
  · rw [decodeBytes_wordBytes_append, h]; rfl

/-- Settles O6: the decoder runs on each of the seven words. -/
theorem workedEncodingsDecode : Obligations.WorkedEncodingsDecode := by
  unfold Obligations.WorkedEncodingsDecode
  decide

end Sys2Proof

/-! PROOFS of the statements on arithmetic (spec 40_arithmetic.md): the value of each operation as the spec's numbers
give it, and the one shape in which every instruction of the family completes. -/

namespace Sys2Proof.Machine

/-! ### Values as the numbers they stand for (R100, R101, R105, R106) -/

theorem ofInt_toNat_sub_toNat (x y : Word) : BitVec.ofInt 32 ((x.toNat : Int) - (y.toNat : Int)) = x - y := by
  rw [Int.sub_eq_add_neg, BitVec.ofInt_add, BitVec.ofInt_neg]
  simp [BitVec.sub_eq_add_neg]

theorem ofNat_toNat_mul_two_pow (x : Word) (n : Nat) : BitVec.ofNat 32 (x.toNat * 2 ^ n) = x <<< n := by
  apply BitVec.eq_of_toNat_eq
  simp [Nat.shiftLeft_eq]

theorem ofNat_toNat_div_two_pow (x : Word) (n : Nat) : BitVec.ofNat 32 (x.toNat / 2 ^ n) = x >>> n := by
  rw [← Nat.shiftRight_eq_div_pow, ← BitVec.toNat_ushiftRight, BitVec.ofNat_toNat, BitVec.setWidth_eq]

/-- An arithmetic right shift is a quotient rounded down: `Int` division by a positive number rounds down. -/
theorem ofInt_toInt_div_two_pow (x : Word) (n : Nat) : BitVec.ofInt 32 (x.toInt / 2 ^ n) = x.sshiftRight n := by
  simp [BitVec.sshiftRight, Int.shiftRight_eq_div_pow]

theorem State.shiftAmount_eq (s : State) (rs2 : Reg) : s.shiftAmount rs2 = (s.reg rs2).toNat % 32 := by
  simp [State.shiftAmount]

theorem lessSigned_eq (x y : Word) : lessSigned x y = if x.toInt < y.toInt then 1#32 else 0#32 := by
  simp [lessSigned, boolWord, BitVec.slt_iff_toInt_lt]

theorem lessUnsigned_eq (x y : Word) : lessUnsigned x y = if x.toNat < y.toNat then 1#32 else 0#32 := by
  simp [lessUnsigned, boolWord, BitVec.ult_iff_lt, BitVec.lt_def]

/-! ### Completion (R14) -/

/-- An instruction that ends by writing one register completes, with that register's value and the frame of it. -/
theorem exec_completes {i : Instr} {s : State} {rd : Reg} {v w : Word} (hi : exec i s = s.finishReg rd v)
    (hv : w = v) : ∃ t, exec i s = .next t ∧ RegResult s t rd w :=
  ⟨_, hi, hv ▸ s.regResult_setReg rd v⟩

/-! ### The instructions (R102 to R111) -/

/-- Settles O10: the sum and the difference of bit vectors are those of the numbers they stand for. -/
theorem addSubResult : Obligations.AddSubResult := fun _ rd rs1 rs2 =>
  ⟨⟨decodeWord_encode (i := .add rd rs1 rs2) rfl, exec_completes rfl (BitVec.add_def ..).symm⟩,
    decodeWord_encode (i := .sub rd rs1 rs2) rfl, exec_completes rfl (ofInt_toNat_sub_toNat ..)⟩

/-- Settles O11: the shift amount is a remainder, and a shift by it a product or a quotient. -/
theorem registerShiftResult : Obligations.RegisterShiftResult := by
  intro s rd rs1 rs2
  rw [← s.shiftAmount_eq rs2]
  exact ⟨⟨decodeWord_encode (i := .sll rd rs1 rs2) rfl, exec_completes rfl (ofNat_toNat_mul_two_pow ..)⟩,
    ⟨decodeWord_encode (i := .srl rd rs1 rs2) rfl, exec_completes rfl (ofNat_toNat_div_two_pow ..)⟩,
    decodeWord_encode (i := .sra rd rs1 rs2) rfl, exec_completes rfl (ofInt_toInt_div_two_pow ..)⟩

/-- Settles O12, from the value of the signed comparison. -/
theorem sltResult : Obligations.SltResult := fun _ rd rs1 rs2 =>
  ⟨decodeWord_encode (i := .slt rd rs1 rs2) rfl, exec_completes rfl (lessSigned_eq ..).symm⟩

/-- Settles O13, from the value of the unsigned comparison. -/
theorem sltuResult : Obligations.SltuResult := by
  intro s rd rs1 rs2
  obtain ⟨t, ht, hrd, -⟩ := exec_completes (i := .sltu rd rs1 rs2) (s := s) rfl (lessUnsigned_eq ..).symm
  exact ⟨decodeWord_encode (i := .sltu rd rs1 rs2) rfl, t, ht, hrd⟩

/-- Settles O14: the register written holds the exclusive or of the two words, whose bits are those of the statement. -/
theorem xorResult : Obligations.XorResult := by
  intro s rd rs1 rs2
  obtain ⟨t, ht, hrd, -⟩ := exec_completes (i := .xor rd rs1 rs2) (s := s) rfl rfl
  refine ⟨decodeWord_encode (i := .xor rd rs1 rs2) rfl, t, ht, fun h0 k _ => ?_⟩
  rw [hrd h0]
  exact BitVec.getLsbD_xor

/-- Settles O15: the value written is the or, the and, of the two words. -/
theorem orAndResult : Obligations.OrAndResult := by
  intro s rd rs1 rs2
  obtain ⟨t, ht, hor⟩ := exec_completes (i := .or rd rs1 rs2) (s := s) rfl rfl
  obtain ⟨u, hu, hand⟩ := exec_completes (i := .and rd rs1 rs2) (s := s) rfl rfl
  exact ⟨⟨decodeWord_encode (i := .or rd rs1 rs2) rfl, t, _, ht, hor, fun _ _ => BitVec.getLsbD_or⟩,
    decodeWord_encode (i := .and rd rs1 rs2) rfl, u, _, hu, hand, fun _ _ => BitVec.getLsbD_and⟩

end Sys2Proof.Machine

/-! PROOFS of the statements on arithmetic with an immediate (spec 41_arithmetic_immediate.md): the two immediates as
the numbers they stand for, and each operation with the immediate as its second operand. -/

namespace Sys2Proof.Machine

/-! ### The immediates as the numbers they stand for (R57, R60, R120) -/

theorem toInt_imm12 (imm : BitVec 12) : (imm12 imm).toInt = imm.toInt :=
  BitVec.toInt_signExtend_of_le (by decide)

/-- From bit 11 up a sign-extended immediate repeats its sign (R120). -/
theorem getLsbD_imm12 (imm : BitVec 12) {k : Nat} (hk : k < 32) : (imm12 imm).getLsbD k = imm.getLsbD (min k 11) := by
  rw [imm12, BitVec.getLsbD_signExtend]
  by_cases h : k < 12
  · simp [hk, h, show min k 11 = k by omega]
  · simp [hk, h, show min k 11 = 11 by omega, BitVec.msb_eq_getLsbD_last]

theorem ofInt_toInt_add_toInt (x : Word) (imm : BitVec 12) : BitVec.ofInt 32 (x.toInt + imm.toInt) = x + imm12 imm := by
  rw [BitVec.ofInt_add, BitVec.ofInt_toInt, imm12, BitVec.signExtend]

/-- The upper immediate is its field times 4096: twelve zero bits follow the field (R60). -/
theorem ofNat_toNat_mul_4096 (imm : BitVec 20) : BitVec.ofNat 32 (imm.toNat * 4096) = immU imm := by
  have h : (immU imm).toNat = imm.toNat * 4096 := (toNat_cat imm 0#12).trans (by simp)
  rw [← h, BitVec.ofNat_toNat, BitVec.setWidth_eq]

theorem ofNat_toNat_add_mul_4096 (x : Word) (imm : BitVec 20) :
    BitVec.ofNat 32 (x.toNat + imm.toNat * 4096) = x + immU imm := by
  rw [BitVec.ofNat_add, BitVec.ofNat_toNat, BitVec.setWidth_eq, ofNat_toNat_mul_4096]

/-! ### The illegal shift words (R63, D6) -/

section
variable {upper : BitVec 7} (shamt rs1 rd : Reg)

theorem decodeWord_leftShift_illegal (h : upper ≠ 0x00#7) :
    decodeWord (formR upper shamt rs1 1#3 rd 0x13#7) = .error (.unknownFunct7 1#3 upper) := by
  simp [decodeWord, decodeArithImm, h]

theorem decodeWord_rightShift_illegal (h : upper ≠ 0x00#7) (h' : upper ≠ 0x20#7) :
    decodeWord (formR upper shamt rs1 5#3 rd 0x13#7) = .error (.unknownFunct7 5#3 upper) := by
  simp [decodeWord, decodeArithImm, h, h']
end

/-! ### The instructions (R121 to R131) -/

/-- Completion with the value written given by its bits. -/
theorem exec_completes_bitwise {i : Instr} {s : State} {rd : Reg} {v : Word} {p : Nat → Bool}
    (hi : exec i s = s.finishReg rd v) (hv : ∀ k < 32, v.getLsbD k = p k) :
    ∃ t v, exec i s = .next t ∧ RegResult s t rd v ∧ ∀ k < 32, v.getLsbD k = p k :=
  have ⟨t, ht, hr⟩ := exec_completes hi rfl
  ⟨t, v, ht, hr, hv⟩

/-- Settles O16: the sum of bit vectors is that of the signed numbers. -/
theorem addiResult : Obligations.AddiResult := fun _ rd rs1 imm =>
  ⟨decodeWord_encode (i := .addi rd rs1 imm) rfl, exec_completes rfl (ofInt_toInt_add_toInt ..)⟩

/-- Settles O17: sign extension keeps the signed value, which SLTI compares; SLTIU compares the extended word. -/
theorem sltiSltiuResult : Obligations.SltiSltiuResult := by
  intro s rd rs1 imm
  rw [← toInt_imm12 imm]
  exact ⟨⟨decodeWord_encode (i := .slti rd rs1 imm) rfl, exec_completes rfl (lessSigned_eq ..).symm⟩,
    decodeWord_encode (i := .sltiu rd rs1 imm) rfl,
    exec_completes rfl (by rw [BitVec.ofInt_toInt, lessUnsigned_eq])⟩

/-- Settles O18: each bit of the value written combines a bit of the register and one of the extended immediate. -/
theorem logicImmediateResult : Obligations.LogicImmediateResult := fun _ rd rs1 imm =>
  ⟨⟨decodeWord_encode (i := .xori rd rs1 imm) rfl,
      exec_completes_bitwise rfl fun _ hk => getLsbD_imm12 imm hk ▸ BitVec.getLsbD_xor⟩,
    ⟨decodeWord_encode (i := .ori rd rs1 imm) rfl,
      exec_completes_bitwise rfl fun _ hk => getLsbD_imm12 imm hk ▸ BitVec.getLsbD_or⟩,
    decodeWord_encode (i := .andi rd rs1 imm) rfl,
      exec_completes_bitwise rfl fun _ hk => getLsbD_imm12 imm hk ▸ BitVec.getLsbD_and⟩

/-- Settles O19: the shifts are products and quotients as for the register shifts, and the decoder tests all of the
upper field. -/
theorem immediateShiftResult : Obligations.ImmediateShiftResult := fun _ rd rs1 shamt =>
  ⟨⟨decodeWord_encode (i := .slli rd rs1 shamt) rfl, exec_completes rfl (ofNat_toNat_mul_two_pow ..)⟩,
    ⟨decodeWord_encode (i := .srli rd rs1 shamt) rfl, exec_completes rfl (ofNat_toNat_div_two_pow ..)⟩,
    ⟨decodeWord_encode (i := .srai rd rs1 shamt) rfl, exec_completes rfl (ofInt_toInt_div_two_pow ..)⟩,
    fun _ h => ⟨decodeWord_leftShift_illegal shamt rs1 rd h, decodeWord_rightShift_illegal shamt rs1 rd h⟩⟩

/-- Settles O20, from the value of the upper immediate. -/
theorem luiResult : Obligations.LuiResult := by
  intro s rd imm
  obtain ⟨t, ht, hrd, -⟩ := exec_completes (i := .lui rd imm) (s := s) rfl (ofNat_toNat_mul_4096 imm)
  exact ⟨decodeWord_encode (i := .lui rd imm) rfl, t, ht, hrd⟩

/-- Settles O22: `pc` is read before it moves, so the sum is with the address of the instruction itself. -/
theorem auipcResult : Obligations.AuipcResult := fun _ rd imm =>
  ⟨decodeWord_encode (i := .auipc rd imm) rfl, exec_completes rfl (ofNat_toNat_add_mul_4096 ..)⟩

end Sys2Proof.Machine

/-! PROOFS of the statements on loads and stores (spec 42_memory_instructions.md): the numbers the loaded bytes stand
for, the bytes of a stored register, and the one shape in which an admitted store completes. -/

namespace Sys2Proof.Machine

/-! ### The bytes read as the numbers they stand for (R31, R33, R141 to R145) -/

theorem signExtend_readBytes_one (m : Memory) (a : Word) :
    (m.readBytes a 1).signExtend 32 = BitVec.ofInt 32 (m.byteAt a.toNat).toInt := by
  rw [Memory.readBytes_one, BitVec.signExtend]

theorem zeroExtend_readBytes_one (m : Memory) (a : Word) :
    (m.readBytes a 1).zeroExtend 32 = BitVec.ofNat 32 (m.byteAt a.toNat).toNat := by
  rw [Memory.readBytes_one, BitVec.ofNat_toNat]

/-- Only the byte at the higher address carries the sign of a halfword. -/
theorem signExtend_readBytes_two (m : Memory) (a : Word) : (m.readBytes a 2).signExtend 32 =
    BitVec.ofInt 32 ((m.byteAt (a + 1#32).toNat).toInt * 256 + (m.byteAt a.toNat).toNat) := by
  rw [Memory.readBytes_two, BitVec.signExtend, BitVec.toInt_append, Int.mul_comm]
  rfl

theorem zeroExtend_readBytes_two (m : Memory) (a : Word) : (m.readBytes a 2).zeroExtend 32 =
    BitVec.ofNat 32 ((m.byteAt (a + 1#32).toNat).toNat * 256 + (m.byteAt a.toNat).toNat) := by
  rw [Memory.readBytes_two, BitVec.zeroExtend, ← BitVec.ofNat_toNat]
  exact congrArg (BitVec.ofNat 32) (toNat_cat ..)

/-! ### The bytes of a stored register (R34, R146 to R148) -/

theorem valueByte_eq {w : Nat} (v : BitVec w) (k : Nat) : valueByte v k = BitVec.ofNat 8 (v.toNat / 2 ^ (8 * k)) :=
  congrArg (BitVec.ofNat 8) (Nat.shiftRight_eq_div_pow v.toNat (8 * k))

/-- A byte of the low field of a value is that byte of the value. -/
theorem valueByte_low_field {w : Nat} (v : BitVec w) {n k : Nat} (hk : 8 * k + 8 ≤ n) :
    valueByte (v.extractLsb' 0 n) k = BitVec.ofNat 8 (v.toNat / 2 ^ (8 * k)) := by
  rw [← valueByte_eq]
  apply BitVec.eq_of_getLsbD_eq
  intro i hi
  have hin : 8 * k + i < n := by omega
  simp [valueByte, hi, hin]

/-! ### Completion (R33, R34, R38, R42) -/

/-- Writing memory and moving past the instruction leaves everything else as it was. -/
theorem State.storeFrame_advance (s : State) (m : Memory) : StoreFrame s (State.advance { s with mem := m }) :=
  ⟨fun _ => rfl, rfl, rfl, rfl, rfl⟩

/-- A store to aligned bytes of MEM outside CODE completes: its bytes are those of the value, every other byte and
everything else is kept. -/
theorem State.store_completes {w : Nat} (s : State) (a : Word) {n : Nat} (v : BitVec w) (hn : n ≤ 4294967296)
    (hal : a.toNat % n = 0) (hb : ∀ b ∈ accessed a n, s.inMem b = true ∧ s.inCode b = false) :
    ∃ t, s.store a n v = .next t ∧ StoreFrame s t ∧ (∀ k < n, t.byte (a + BitVec.ofNat 32 k) = valueByte v k) ∧
      ∀ b, b ∉ accessed a n → t.byte b = s.byte b :=
  ⟨_, s.store_of_admitted a n v ((s.accessCheck_eq_none a n).2 ⟨hal, fun b h => (hb b h).1⟩) fun b h => (hb b h).2,
    s.storeFrame_advance _, fun k hk => Memory.byteAt_writeBytes_inside s.mem a v n k hk hn,
    Memory.byteAt_writeBytes_outside s.mem a v n⟩

/-! ### The effective address (R140) -/

/-- Settles O23: the sum of bit vectors is that of the signed numbers. -/
theorem effectiveAddressWraps : Obligations.EffectiveAddressWraps := fun _ _ _ => (ofInt_toInt_add_toInt ..).symm

/-! ### The loads (R141 to R145) -/

/-- Settles O24: a byte is always aligned, so that it is in MEM admits the access. -/
theorem loadByteResult : Obligations.LoadByteResult := by
  intro s rd rs1 imm
  refine ⟨decodeWord_encode (i := .lb rd rs1 imm) rfl, decodeWord_encode (i := .lbu rd rs1 imm) rfl, fun hm => ?_⟩
  have hok : s.accessCheck (s.ea rs1 imm) 1 = none :=
    (s.accessCheck_eq_none _ 1).2 ⟨Nat.mod_one _, by simpa [accessed_one] using hm⟩
  exact ⟨exec_completes (s.load_of_admitted rd _ 1 _ hok) (signExtend_readBytes_one ..).symm,
    exec_completes (s.load_of_admitted rd _ 1 _ hok) (zeroExtend_readBytes_one ..).symm⟩

/-- Settles O25, from the two readings of two bytes. -/
theorem loadHalfResult : Obligations.LoadHalfResult := by
  rintro s rd rs1 imm _ rfl
  refine ⟨decodeWord_encode (i := .lh rd rs1 imm) rfl, decodeWord_encode (i := .lhu rd rs1 imm) rfl,
    fun hal h0 h1 => ?_⟩
  have hok : s.accessCheck (s.ea rs1 imm) 2 = none :=
    (s.accessCheck_eq_none _ 2).2 ⟨hal, by simp [accessed_two, h0, h1]⟩
  exact ⟨exec_completes (s.load_of_admitted rd _ 2 _ hok) (signExtend_readBytes_two ..).symm,
    exec_completes (s.load_of_admitted rd _ 2 _ hok) (zeroExtend_readBytes_two ..).symm⟩

/-- Settles O26: four bytes read are the word they make. -/
theorem loadWordResult : Obligations.LoadWordResult := by
  rintro s rd rs1 imm _ rfl
  refine ⟨decodeWord_encode (i := .lw rd rs1 imm) rfl, fun hal h0 h1 h2 h3 => ?_⟩
  have hok : s.accessCheck (s.ea rs1 imm) 4 = none :=
    (s.accessCheck_eq_none _ 4).2 ⟨hal, by simp [accessed_four, h0, h1, h2, h3]⟩
  exact exec_completes (s.load_of_admitted rd _ 4 _ hok) (Memory.readBytes_four ..).symm

/-! ### The stores (R146 to R148) -/

/-- Settles O27: a byte is always aligned, and byte 0 of the low byte of `x[rs2]` is byte 0 of `x[rs2]`. -/
theorem storeByteResult : Obligations.StoreByteResult := by
  rintro s rs2 rs1 imm _ rfl
  refine ⟨decodeWord_encode (i := .sb rs2 rs1 imm) rfl, fun hm hc => ?_⟩
  obtain ⟨t, ht, hframe, hin, hout⟩ := s.store_completes (s.ea rs1 imm) (n := 1) ((s.reg rs2).extractLsb' 0 8)
    (by decide) (Nat.mod_one _) (by simp [accessed_one, hm, hc])
  have hbyte := (hin 0 (by decide)).trans (valueByte_low_field _ (by decide))
  refine ⟨t, ht, hframe, by simpa using hbyte, fun b hb => hout b ?_⟩
  simpa [accessed_one] using hb

/-- Settles O28: the bytes of the low half of `x[rs2]` are the two low bytes of `x[rs2]`. -/
theorem storeHalfResult : Obligations.StoreHalfResult := by
  rintro s rs2 rs1 imm _ rfl
  refine ⟨decodeWord_encode (i := .sh rs2 rs1 imm) rfl, fun hal hb => ?_⟩
  obtain ⟨t, ht, hframe, hin, hout⟩ := s.store_completes (s.ea rs1 imm) ((s.reg rs2).extractLsb' 0 16)
    (by decide) hal hb
  have hbyte (k : Nat) (hk : k < 2) := (hin k hk).trans (valueByte_low_field _ (by omega))
  exact ⟨t, ht, hframe, by simpa using hbyte 0 (by decide), hbyte 1 (by decide), hout⟩

/-- Settles O29: each byte of `x[rs2]` as a quotient of it. -/
theorem storeWordResult : Obligations.StoreWordResult := by
  rintro s rs2 rs1 imm _ rfl
  refine ⟨decodeWord_encode (i := .sw rs2 rs1 imm) rfl, fun hal hb => ?_⟩
  obtain ⟨t, ht, hframe, hin, hout⟩ := s.store_completes (s.ea rs1 imm) (s.reg rs2) (by decide) hal hb
  have hbyte (k : Nat) (hk : k < 4) := (hin k hk).trans (valueByte_eq ..)
  exact ⟨t, ht, hframe, by simpa using hbyte 0 (by decide), hbyte 1 (by decide), hbyte 2 (by decide),
    hbyte 3 (by decide), hout⟩

end Sys2Proof.Machine

/-! PROOFS of the statements on the special instructions (spec 43_xviv_special.md): what each of them answers, what a
partial sum becomes along a list of instructions, and the address that psrf.lw and psrf.sw generate. -/

namespace Sys2Proof.Machine

/-! ### What each instruction answers (R161 to R167) -/

/-- An outcome behind a check goes on exactly when the check lets it pass and it goes on. -/
theorem raise_else_eq_next {P : Prop} [Decidable P] {s t : State} {f : Word → Fault}
    {o : Host.Outcome State Fault Refusal} : (if P then s.raise f else o) = .next t ↔ ¬ P ∧ o = .next t := by
  split
  · next hP => simp [State.raise, hP]
  · next hP => simp [hP]

theorem exec_corfLui_eq_next {s t : State} {cd : Reg} {imm : BitVec 20} : exec (.corfLui cd imm) s = .next t ↔
    cd.toNat < s.nco ∧ t = (s.setCo cd.toNat (immU imm)).advance := by
  rw [exec, execCorfLui, raise_else_eq_next, Nat.not_le, Host.Outcome.next.injEq, eq_comm (b := t)]

theorem exec_corfAddi_eq_next {s t : State} {cd cs : Reg} {imm : BitVec 12} : exec (.corfAddi cd cs imm) s = .next t ↔
    cs.toNat < s.nco ∧ cd.toNat < s.nco ∧ t = (s.setCo cd.toNat (s.co cs.toNat + imm12 imm)).advance := by
  rw [exec, execCorfAddi, raise_else_eq_next, raise_else_eq_next, Nat.not_le, Nat.not_le, Host.Outcome.next.injEq,
    eq_comm (b := t)]

theorem exec_ppsrfAddi_eq_next {s t : State} {pd ps : Reg} {imm : BitVec 12} :
    exec (.ppsrfAddi pd ps imm) s = .next t ↔
    ps.toNat < s.nps ∧ pd.toNat < s.nps ∧ t = (s.setPsVal pd.toNat (s.psVal ps.toNat + imm12 imm)).advance := by
  rw [exec, execPpsrfAddi, raise_else_eq_next, raise_else_eq_next, Nat.not_le, Nat.not_le, Host.Outcome.next.injEq,
    eq_comm (b := t)]

section
variable {s : State} {rs1 rs2 : Reg}

theorem exec_psrfLw_of_lt {rd : Reg} {var : BitVec 12} (h : var.toNat < 3) :
    exec (.psrfLw rd rs1 var) s = s.load rd (s.psrfAddr rs1 var) 4 fun v => v :=
  if_neg (Nat.not_le.2 h)

theorem exec_psrfSw_of_lt {var : BitVec 12} (h : var.toNat < 3) :
    exec (.psrfSw rs2 rs1 var) s = s.store (s.psrfAddr rs1 var) 4 (s.reg rs2) :=
  if_neg (Nat.not_le.2 h)

theorem exec_psrfBranch_taken {imm : BitVec 13} (h : Config.psrfBranchCond (s.reg rs1) (s.reg rs2) = true) :
    exec (.psrfBranch rs1 rs2 imm) s = .next (s.jump (s.pc + immB imm)) := by
  rw [exec, execPsrfBranch, h, State.branch_taken]

theorem exec_psrfBranch_not_taken {imm : BitVec 13} (h : ¬ Config.psrfBranchCond (s.reg rs1) (s.reg rs2) = true) :
    exec (.psrfBranch rs1 rs2 imm) s = .next (s.updateTagged (s.branchTag rs1 rs2) fun _ _ => 0#32).advance := by
  rw [exec, execPsrfBranch, Bool.eq_false_of_not_eq_true h, State.branch_not_taken]

end

/-! ### Entries of the psrf and the corf after an update (R163, R164, R167) -/

section
variable {s : State} {k : Nat} {e : PsrfEntry}

theorem State.updateTagged_entry (d : Reg) (f : Nat → Word → Word) (h : s.psrf[k]? = some e) :
    (s.updateTagged d f).psrf[k]? = some (if e.tag = d then ⟨f k e.val, e.tag⟩ else e) := by
  rw [State.updateTagged_getElem?, h]
  rfl

/-- Where no entry has the tag there is nothing to update. -/
theorem State.updateTagged_of_untagged {d : Reg} (f : Nat → Word → Word) (h : ∀ e ∈ s.psrf, e.tag ≠ d) :
    s.updateTagged d f = s := by
  have hpsrf : (s.updateTagged d f).psrf = s.psrf := by
    refine List.ext_getElem? fun k => ?_
    cases hk : s.psrf[k]? with
    | none => simp [State.updateTagged_getElem?, hk]
    | some e => rw [State.updateTagged_entry d f hk, if_neg (h e (List.mem_of_getElem? hk))]
  exact congrArg (fun p => { s with psrf := p }) hpsrf

/-- psrf.addi adds to an entry of its tag the corf entry of the same number (R163). -/
theorem exec_psrfAddi_entry {t : State} {d : Reg} {imm : BitVec 12} (h : exec (.psrfAddi d imm) s = .next t)
    (hk : s.psrf[k]? = some e) : t.psrf[k]? = some (if e.tag = d then ⟨e.val + s.co k, e.tag⟩ else e) := by
  cases h
  exact State.updateTagged_entry d (fun i v => v + s.co i) (by simpa using hk)

theorem State.setPsVal_of_ne {j : Nat} (v : Word) (h : k ≠ j) : (s.setPsVal j v).psrf[k]? = s.psrf[k]? := by
  simp [State.setPsVal_getElem?, h.symm]

theorem State.psVal_of_getElem? (h : s.psrf[k]? = some e) : s.psVal k = e.val := by
  simp [State.psVal, h]

theorem State.co_of_getElem? {c : Word} (h : s.corf[k]? = some c) : s.co k = c := by
  simp [State.co, h]

end

/-! ### A partial sum along a list of instructions (R168) -/

/-- The destination of the instruction is entry `k` of the corf or, by ppsrf.addi, of the psrf (R165 to R167). -/
def assignsEntry (k : Nat) : Instr → Prop
  | .corfLui cd _ | .corfAddi cd _ _ => cd.toNat = k
  | .ppsrfAddi pd _ _ => pd.toNat = k
  | _ => False

/-- Every psrf.branch of the list whose tag selection is `d` is taken in the state it is executed in. -/
def BranchesTaken (d : Reg) (is : List Instr) (s : State) : Prop :=
  ∀ pre post rs1 rs2 imm u, is = pre ++ .psrfBranch rs1 rs2 imm :: post → execAll pre s = .next u →
    u.branchTag rs1 rs2 = d → Config.psrfBranchCond (u.reg rs1) (u.reg rs2) = true

theorem execAll_cons_of_next {i : Instr} {s u : State} (h : exec i s = .next u) (is : List Instr) :
    execAll (i :: is) s = execAll is u := by
  rw [execAll, h]

/-- A list that goes on has executed its first instruction and gone on from there. -/
theorem execAll_cons_eq_next {i : Instr} {is : List Instr} {s t : State} (h : execAll (i :: is) s = .next t) :
    ∃ u, exec i s = .next u ∧ execAll is u = .next t := by
  rw [execAll] at h
  cases hi : exec i s with
  | next u => exact ⟨u, rfl, by rwa [hi] at h⟩
  | fault f => rw [hi] at h; cases h
  | refused r => rw [hi] at h; cases h

theorem BranchesTaken.head {d rs1 rs2 : Reg} {imm : BitVec 13} {is : List Instr} {s : State}
    (h : BranchesTaken d (.psrfBranch rs1 rs2 imm :: is) s) (hd : s.branchTag rs1 rs2 = d) :
    Config.psrfBranchCond (s.reg rs1) (s.reg rs2) = true :=
  h [] is rs1 rs2 imm s rfl rfl hd

theorem BranchesTaken.tail {d : Reg} {i : Instr} {is : List Instr} {s u : State} (h : BranchesTaken d (i :: is) s)
    (hi : exec i s = .next u) : BranchesTaken d is u := fun pre post rs1 rs2 imm w his hw =>
  h (i :: pre) post rs1 rs2 imm w (his ▸ rfl) (execAll_cons_of_next hi pre ▸ hw)

section
variable {i : Instr} {s t : State} {k : Nat} {d : Reg} {v c : Word}

/-- A corf entry that is not the destination stays. -/
theorem exec_corf_entry (h : exec i s = .next t) (hk : ¬ assignsEntry k i) : t.corf[k]? = s.corf[k]? := by
  cases hw : writesCorf i with
  | false => rw [exec_corf h hw]
  | true =>
    cases i with
    | corfLui cd imm =>
      obtain ⟨hcd, rfl⟩ := exec_corfLui_eq_next.1 h
      exact (s.setCo_getElem? _ k _ hcd).trans (if_neg hk)
    | corfAddi cd cs imm =>
      obtain ⟨-, hcd, rfl⟩ := exec_corfAddi_eq_next.1 h
      exact (s.setCo_getElem? _ k _ hcd).trans (if_neg hk)
    | _ => cases hw

/-- psrf.branch clears an entry of its own tag when it falls through, and leaves every other case alone. -/
theorem exec_psrfBranch_entry (hp : s.psrf[k]? = some ⟨v, d⟩) {rs1 rs2 : Reg} {imm : BitVec 13} :
    ∃ u, exec (.psrfBranch rs1 rs2 imm) s = .next u ∧
      u.psrf[k]? = some (if d = s.branchTag rs1 rs2 ∧ ¬ Config.psrfBranchCond (s.reg rs1) (s.reg rs2) = true
        then ⟨0#32, d⟩ else ⟨v, d⟩) := by
  by_cases hc : Config.psrfBranchCond (s.reg rs1) (s.reg rs2) = true
  · exact ⟨_, exec_psrfBranch_taken hc, by simpa [hc] using hp⟩
  · refine ⟨_, exec_psrfBranch_not_taken hc, ?_⟩
    rw [State.advance_psrf, State.updateTagged_entry _ _ hp]
    simp [hc]

/-- One instruction adds the stride of a partial sum if it steps the counter, and otherwise leaves the sum as it is,
unless it assigns the entry or is a psrf.branch of the counter that falls through. -/
theorem exec_psrf_entry {is : List Instr} (h : exec i s = .next t) (hk : ¬ assignsEntry k i)
    (hb : BranchesTaken d (i :: is) s) (hp : s.psrf[k]? = some ⟨v, d⟩) (hc : s.corf[k]? = some c) :
    t.psrf[k]? = some ⟨v + BitVec.ofNat 32 (if stepsCounter d i then 1 else 0) * c, d⟩ := by
  cases i with
  | psrfAddi d' imm =>
    rw [exec_psrfAddi_entry h hp, State.co_of_getElem? hc]
    by_cases hd : d' = d
    · simp [stepsCounter, hd]
    · simp [stepsCounter, hd, Ne.symm hd]
  | psrfBranch rs1 rs2 imm =>
    obtain ⟨u, hu, hpu⟩ := exec_psrfBranch_entry hp (rs1 := rs1) (rs2 := rs2) (imm := imm)
    cases hu.symm.trans h
    rw [hpu, if_neg fun hn => hn.2 (hb.head hn.1.symm)]
    simp [stepsCounter]
  | ppsrfAddi pd ps imm =>
    obtain ⟨-, -, rfl⟩ := exec_ppsrfAddi_eq_next.1 h
    refine (State.setPsVal_of_ne _ (Ne.symm hk)).trans (hp.trans ?_)
    simp [stepsCounter]
  | _ =>
    rw [exec_psrf h rfl, hp]
    simp [stepsCounter]

end

/-- A partial sum gains its stride once for each step of its counter: by induction on the list, from any value. -/
theorem execAll_psrf_entry {is : List Instr} {s t : State} {k : Nat} {d : Reg} {v c : Word}
    (hp : s.psrf[k]? = some ⟨v, d⟩) (hc : s.corf[k]? = some c) (hk : ∀ i ∈ is, ¬ assignsEntry k i)
    (hb : BranchesTaken d is s) (h : execAll is s = .next t) :
    t.psrf[k]? = some ⟨v + BitVec.ofNat 32 (is.countP (stepsCounter d)) * c, d⟩ := by
  induction is generalizing s v with
  | nil =>
    cases h
    simpa using hp
  | cons i is ih =>
    obtain ⟨u, hi, his⟩ := execAll_cons_eq_next h
    have hki := hk i List.mem_cons_self
    have hpu := exec_psrf_entry hi hki hb hp hc
    have hcu : u.corf[k]? = some c := (exec_corf_entry hi hki).trans hc
    rw [ih hpu hcu (fun j hj => hk j (List.mem_cons_of_mem i hj)) (hb.tail hi) his, List.countP_cons, BitVec.ofNat_add]
    congr 2
    ring

/-- Settles O40: the sum along the list by induction; the psrf.branch after it is one more instruction. -/
theorem partialSumCountsSteps : Obligations.PartialSumCountsSteps := by
  intro is s t k d v c hp hc hlui haddi hpaddi hb h
  have hk : ∀ i ∈ is, ¬ assignsEntry k i := by
    intro i hi
    cases i with
    | corfLui cd imm => exact hlui cd imm hi
    | corfAddi cd cs imm => exact haddi cd cs imm hi
    | ppsrfAddi pd ps imm => exact hpaddi pd ps imm hi
    | _ => exact id
  have hpt := execAll_psrf_entry hp hc hk hb h
  refine ⟨hpt, fun rs1 rs2 imm htag => ?_⟩
  obtain ⟨u, hu, hpu⟩ := exec_psrfBranch_entry hpt (rs1 := rs1) (rs2 := rs2) (imm := imm)
  refine ⟨u, hu, ?_⟩
  rw [hpu, hpt]
  by_cases hcond : Config.psrfBranchCond (t.reg rs1) (t.reg rs2) = true
  · simp [hcond]
  · simp [hcond, htag]

/-! ### The generated address (R160 to R162) -/

theorem ofNat_sum_toNat (l : List Word) : BitVec.ofNat 32 (l.map BitVec.toNat).sum = l.sum := by
  induction l with
  | nil => rfl
  | cons x l ih => rw [List.map_cons, List.sum_cons, BitVec.ofNat_add, ih, BitVec.ofNat_toNat, BitVec.setWidth_eq,
      List.sum_cons]

theorem State.psVal_eq_getD (s : State) (k : Nat) : s.psVal k = (s.psrf.getD k ⟨0#32, 0#5⟩).val := by
  rw [State.psVal, List.getD_eq_getElem?_getD]
  cases s.psrf[k]? <;> rfl

theorem State.agu_of_select {s : State} {var : BitVec 12} {sel : List Nat}
    (h : s.cfg.aguSelect[var.toNat]? = some sel) : s.agu var = (sel.map s.psVal).sum := by
  simp [State.agu, State.aguSelect, h]

/-- AGU_SELECT lists entries for a `var` below NVAR = 3 only (R61). -/
theorem var_lt_of_select {s : State} {var : BitVec 12} {sel : List Nat} (h : s.cfg.aguSelect[var.toNat]? = some sel) :
    var.toNat < 3 :=
  (Vector.getElem?_eq_some_iff.1 h).1

/-- Selected values that are all 0 add nothing to the base register. -/
theorem State.psrfAddr_of_zero {s : State} {var : BitVec 12} {sel : List Nat} (rs1 : Reg)
    (h : s.cfg.aguSelect[var.toNat]? = some sel) (h0 : ∀ k ∈ sel, s.psVal k = 0#32) :
    s.psrfAddr rs1 var = s.ea rs1 0#12 := by
  have hagu : s.agu var = 0#32 := by
    rw [State.agu_of_select h]
    exact List.sum_eq_zero (by simpa using h0)
  rw [State.psrfAddr, hagu, State.ea, BitVec.add_comm]
  rfl

/-- Settles O32: the model's sum of bit vectors is the sum of the numbers modulo 2^32. -/
theorem aguAddressIsTheSum : Obligations.AguAddressIsTheSum := by
  intro s rs1 var sel hsel _
  have hvals : (sel.map fun k => (s.psrf.getD k ⟨0#32, 0#5⟩).val.toNat) = (sel.map s.psVal).map BitVec.toNat := by
    simp [State.psVal_eq_getD]
  rw [hvals, BitVec.ofNat_add, ofNat_sum_toNat, BitVec.ofNat_toNat, BitVec.setWidth_eq, State.psrfAddr,
    State.agu_of_select hsel]

/-- Settles O35: both pairs are the same operation at the same address. -/
theorem zeroSumsAreLwAndSw : Obligations.ZeroSumsAreLwAndSw := by
  intro s r rs1 var sel hsel h0
  have hvar := var_lt_of_select hsel
  have haddr : s.psrfAddr rs1 var = s.ea rs1 0#12 := by
    refine State.psrfAddr_of_zero rs1 hsel fun k hk => ?_
    obtain ⟨tag, hk⟩ := h0 k hk
    exact State.psVal_of_getElem? hk
  rw [exec_psrfLw_of_lt hvar, exec_psrfSw_of_lt hvar, haddr]
  exact ⟨rfl, rfl⟩

/-- Settles O33: four bytes read are the word they make. -/
theorem psrfLwResult : Obligations.PsrfLwResult := by
  rintro s rd rs1 var _ rfl
  refine ⟨decodeWord_encode (i := .psrfLw rd rs1 var) rfl, fun hvar hal hm => ?_⟩
  have hok := (s.accessCheck_eq_none _ 4).2 ⟨hal, hm⟩
  exact exec_completes ((exec_psrfLw_of_lt hvar).trans (s.load_of_admitted rd _ 4 _ hok))
    (Memory.readBytes_four ..).symm

/-- Settles O34: each byte of `x[rs2]` as a quotient of it. -/
theorem psrfSwResult : Obligations.PsrfSwResult := by
  rintro s rs2 rs1 var _ rfl
  refine ⟨decodeWord_encode (i := .psrfSw rs2 rs1 var) rfl, fun hvar hal hb => ?_⟩
  obtain ⟨t, ht, hframe, hin, hout⟩ := s.store_completes (s.psrfAddr rs1 var) (s.reg rs2) (by decide) hal hb
  have hbyte (k : Nat) (hk : k < 4) := (hin k hk).trans (valueByte_eq ..)
  exact ⟨t, (exec_psrfSw_of_lt hvar).trans ht, hframe, by simpa using hbyte 0 (by decide), hbyte 1 (by decide),
    hbyte 2 (by decide), hbyte 3 (by decide), hout⟩

/-! ### psrf.addi (R163) -/

/-- Settles O37: with no entry to step, what is left is the addition to the counter. -/
theorem untaggedPsrfAddiIsAddi : Obligations.UntaggedPsrfAddiIsAddi := by
  intro s d imm h
  have hstep : (s.setReg d (s.reg d + imm12 imm)).updateTagged d (fun i v => v + s.co i) =
      s.setReg d (s.reg d + imm12 imm) := State.updateTagged_of_untagged _ (by simpa using h)
  exact congrArg (fun u : State => Host.Outcome.next u.advance) hstep

theorem decodeWord_psrfAddi_registersDiffer (imm : BitVec 12) {r d : Reg} (h : r ≠ d) :
    decodeWord (formI imm r 0#3 d 0x15#7) = .error (.registersDiffer r d) := by
  simp [decodeWord, decodePsrfAddi, h]

/-- Settles O36: the counter is written as any register is, and then the tagged entries are updated. -/
theorem psrfAddiResult : Obligations.PsrfAddiResult := by
  intro s d imm
  refine ⟨decodeWord_encode (i := .psrfAddi d imm) rfl, fun r => decodeWord_psrfAddi_registersDiffer imm, ?_⟩
  obtain ⟨hd, h0, hr, -⟩ := s.regResult_setReg d (s.reg d + imm12 imm)
  rw [ofInt_toInt_add_toInt]
  refine ⟨_, rfl, hd, h0, hr, by simp, by simp [State.updateTagged], fun k e hk ht => ?_, fun k e c hk ht hc => ?_,
    by simp, by simp [SameBytes, State.byte], by simp⟩
  · rw [exec_psrfAddi_entry rfl hk, if_neg ht]
  · rw [exec_psrfAddi_entry rfl hk, if_pos ht, State.co_of_getElem? hc, BitVec.add_def]

/-! ### psrf.branch (R164) -/

theorem State.branchTag_eq (s : State) (rs1 rs2 : Reg) :
    s.branchTag rs1 rs2 = if s.cfg.tagSel = .rs1 then rs1 else rs2 := by
  unfold State.branchTag
  cases s.cfg.tagSel <;> rfl

theorem ofInt_toNat_add_toInt (x : Word) (imm : BitVec 13) :
    BitVec.ofInt 32 ((x.toNat : Int) + imm.toInt) = x + immB imm := by
  rw [BitVec.ofInt_add, BitVec.ofInt_natCast, BitVec.ofNat_toNat, BitVec.setWidth_eq, immB, BitVec.signExtend]

/-- Settles O38, by the two ends of psrf.branch. -/
theorem psrfBranchResult : Obligations.PsrfBranchResult := by
  intro s rs1 rs2 imm
  refine ⟨fun heven => ?_, ?_⟩
  · exact decodeWord_encode (i := .psrfBranch rs1 rs2 imm) (by simp [Instr.wellFormed, BitVec.getLsbD, heven])
  · by_cases hc : Config.psrfBranchCond (s.reg rs1) (s.reg rs2) = true
    · refine ⟨_, exec_psrfBranch_taken hc, fun _ => rfl, rfl, fun _ => rfl, rfl, rfl, ?_⟩
      rw [if_pos hc, ofInt_toNat_add_toInt]
      exact ⟨rfl, rfl⟩
    · refine ⟨_, exec_psrfBranch_not_taken hc, fun _ => rfl, rfl, fun _ => rfl, rfl, ?_, ?_⟩
      · exact s.updateTagged_nps (s.branchTag rs1 rs2) fun _ _ => 0#32
      · rw [if_neg hc, ← s.branchTag_eq]
        exact ⟨rfl, fun _ _ => State.updateTagged_entry (s.branchTag rs1 rs2) fun _ _ => 0#32⟩

/-- Settles O39: the offset 0 leaves `pc` where it is. -/
theorem branchToSelfChangesNothing : Obligations.BranchToSelfChangesNothing := by
  intro s rs1 rs2
  split
  · next hc =>
    have hpc : s.pc + immB 0#13 = s.pc := BitVec.add_zero s.pc
    rw [exec_psrfBranch_taken hc, hpc]
    rfl
  · next hc => exact ⟨_, exec_psrfBranch_not_taken hc, rfl, fun _ => rfl, rfl, fun _ => rfl, rfl⟩

/-! ### corf.lui, corf.addi and ppsrf.addi (R165 to R167) -/

/-- An instruction that ends by writing one corf entry completes, with that entry's value and nothing else changed. -/
theorem exec_completes_corf {i : Instr} {s : State} {k : Nat} {v w : Word} (hi : exec i s = .next (s.setCo k v).advance)
    (hk : k < s.corf.length) (hv : w = v) :
    ∃ t, exec i s = .next t ∧ SameRegs s t ∧ t.pc = s.pc + 4#32 ∧ t.psrf = s.psrf ∧
      t.corf.length = s.corf.length ∧ t.corf[k]? = some w ∧ (∀ j, j ≠ k → t.corf[j]? = s.corf[j]?) ∧
      SameBytes s t ∧ t.cfg = s.cfg := by
  refine ⟨_, hi, fun _ => rfl, rfl, rfl, s.setCo_nco k v, ?_, fun j hj => ?_, fun _ => rfl, rfl⟩
  · exact (s.setCo_getElem? k k v hk).trans (by rw [if_pos rfl, hv])
  · exact (s.setCo_getElem? k j v hk).trans (if_neg hj.symm)

/-- Settles O41, from the value of the upper immediate. -/
theorem corfLuiResult : Obligations.CorfLuiResult := fun _ cd imm =>
  ⟨decodeWord_encode (i := .corfLui cd imm) rfl, fun h => if_pos h, fun h =>
    exec_completes_corf (exec_corfLui_eq_next.2 ⟨h, rfl⟩) h (ofNat_toNat_mul_4096 imm)⟩

/-- Settles O42: the source entry is checked first, then the destination entry. -/
theorem corfAddiResult : Obligations.CorfAddiResult := by
  intro s cd cs imm
  refine ⟨decodeWord_encode (i := .corfAddi cd cs imm) rfl, fun hcs => if_pos hcs, fun hcs hcd => ?_,
    fun c hc hcd => ?_⟩
  · exact (if_neg (Nat.not_le.2 hcs)).trans (if_pos hcd)
  · have hcs : cs.toNat < s.nco := (List.getElem?_eq_some_iff.1 hc).1
    refine exec_completes_corf (exec_corfAddi_eq_next.2 ⟨hcs, hcd, rfl⟩) hcd ?_
    rw [ofInt_toInt_add_toInt, State.co_of_getElem? hc]

/-- Settles O43: the source entry is checked first, then the destination entry, and the write keeps the tag. -/
theorem ppsrfAddiResult : Obligations.PpsrfAddiResult := by
  intro s pd ps imm
  refine ⟨decodeWord_encode (i := .ppsrfAddi pd ps imm) rfl, fun hps => if_pos hps, fun hps hpd => ?_,
    fun e f he hf => ?_⟩
  · exact (if_neg (Nat.not_le.2 hps)).trans (if_pos hpd)
  · have hps : ps.toNat < s.nps := (List.getElem?_eq_some_iff.1 he).1
    have hpd : pd.toNat < s.nps := (List.getElem?_eq_some_iff.1 hf).1
    refine ⟨_, exec_ppsrfAddi_eq_next.2 ⟨hps, hpd, rfl⟩, fun _ => rfl, rfl, s.setPsVal_nps _ _, ?_,
      fun _ => State.setPsVal_of_ne _, rfl, fun _ => rfl, rfl⟩
    refine (s.setPsVal_getElem? _ _ _).trans ?_
    simp [hf, State.psVal_of_getElem? he, ofInt_toInt_add_toInt]

end Sys2Proof.Machine

/-! PROOFS of the statements on exceptions (spec 60_exceptions.md): every instruction is a reserved operand, a load, a
store or one that completes, and a `pc` that is a multiple of 4 stays one but for a taken psrf.branch. -/

namespace Sys2Proof.Machine

/-! ### The fault of a data access (R32 to R34, R38, R42, R202) -/

/-- The table's fault of an access: the checks that loads and stores share, then for a store the one of CODE. -/
theorem accessFaultOf_eq (s : State) (acc : Access) : accessFaultOf s acc =
    (s.accessCheck acc.addr acc.size).or
      (if acc.isStore && (accessed acc.addr acc.size).any s.inCode then some (.storeToCode acc.addr s.pc)
        else none) := by
  unfold accessFaultOf State.accessCheck
  rw [← List.not_all_eq_any_not]
  split
  · rfl
  · cases (accessed acc.addr acc.size).all s.inMem <;> rfl

theorem State.load_eq_fault (s : State) (rd : Reg) (a : Word) (n : Nat) (ext : BitVec (8 * n) → Word) (f : Fault) :
    s.load rd a n ext = .fault f ↔ accessFaultOf s ⟨a, n, false⟩ = some f := by
  rw [accessFaultOf_eq]
  cases h : s.accessCheck a n with
  | none => simp [s.load_of_admitted rd a n ext h]
  | some g => simp [s.load_of_stopped rd a n ext g h]

theorem State.store_eq_fault {w : Nat} (s : State) (a : Word) (n : Nat) (v : BitVec w) (f : Fault) :
    s.store a n v = .fault f ↔ accessFaultOf s ⟨a, n, true⟩ = some f := by
  rw [accessFaultOf_eq]
  cases h : s.accessCheck a n with
  | some g => simp [s.store_of_stopped a n v g h]
  | none =>
    by_cases hc : ∃ b ∈ accessed a n, s.inCode b = true
    · simp [s.store_of_code a n v h hc, hc]
    · have hc' : ∀ b ∈ accessed a n, s.inCode b = false := by simpa using hc
      simp [s.store_of_admitted a n v h hc', hc]

/-! ### Reserved operand, data access, or neither (R19, R36, R61) -/

section
variable {i : Instr} {s : State}

theorem exec_of_reserved {v : Nat} (h : reservedOf s i = some v) : exec i s = .fault (.reservedOperand v s.pc) := by
  cases i with
  | psrfLw | psrfSw | corfLui =>
    simp only [reservedOf] at h
    split_ifs at h with hp
    cases h
    exact if_pos hp
  | corfAddi | ppsrfAddi =>
    simp only [reservedOf] at h
    split_ifs at h with hsrc hdst <;> cases h
    · exact if_pos hsrc
    · exact (if_neg hsrc).trans (if_pos hdst)
  | add | sub | sll | slt | sltu | xor | srl | sra | or | and => cases h
  | addi | slli | slti | sltiu | xori | srli | srai | ori | andi | lui | auipc => cases h
  | lb | lh | lw | lbu | lhu | sb | sh | sw | psrfAddi | psrfBranch => cases h

/-- A load instruction without a reserved operand is the shared operation `load` at its access. -/
theorem exec_eq_load {acc : Access} (ha : accessOf s i = some acc) (hl : acc.isStore = false)
    (hr : reservedOf s i = none) :
    ∃ (rd : Reg) (ext : BitVec (8 * acc.size) → Word), exec i s = s.load rd acc.addr acc.size ext := by
  cases i with
  | lb | lh | lw | lbu | lhu =>
    cases ha
    exact ⟨_, _, rfl⟩
  | psrfLw rd rs1 var =>
    cases ha
    have hvar : ¬ 3 ≤ var.toNat := by simpa [reservedOf] using hr
    exact ⟨rd, fun v => v, exec_psrfLw_of_lt (Nat.not_le.1 hvar)⟩
  | sb | sh | sw | psrfSw =>
    cases ha
    cases hl
  | add | sub | sll | slt | sltu | xor | srl | sra | or | and => cases ha
  | addi | slli | slti | sltiu | xori | srli | srai | ori | andi | lui | auipc => cases ha
  | psrfAddi | psrfBranch | corfLui | corfAddi | ppsrfAddi => cases ha

/-- An instruction with no data access and no reserved operand completes. -/
theorem exec_next_of_no_access (ha : accessOf s i = none) (hr : reservedOf s i = none) : ∃ t, exec i s = .next t := by
  cases i with
  | corfLui cd imm =>
    simp only [reservedOf] at hr
    split_ifs at hr with hcd
    exact ⟨_, exec_corfLui_eq_next.2 ⟨Nat.not_le.1 hcd, rfl⟩⟩
  | corfAddi cd cs imm =>
    simp only [reservedOf] at hr
    split_ifs at hr with hcs hcd
    exact ⟨_, exec_corfAddi_eq_next.2 ⟨Nat.not_le.1 hcs, Nat.not_le.1 hcd, rfl⟩⟩
  | ppsrfAddi pd ps imm =>
    simp only [reservedOf] at hr
    split_ifs at hr with hps hpd
    exact ⟨_, exec_ppsrfAddi_eq_next.2 ⟨Nat.not_le.1 hps, Nat.not_le.1 hpd, rfl⟩⟩
  | lb | lh | lw | lbu | lhu | sb | sh | sw | psrfLw | psrfSw => cases ha
  | add | sub | sll | slt | sltu | xor | srl | sra | or | and => exact ⟨_, rfl⟩
  | addi | slli | slti | sltiu | xori | srli | srai | ori | andi | lui | auipc => exact ⟨_, rfl⟩
  | psrfAddi | psrfBranch => exact ⟨_, rfl⟩

/-- Without a reserved operand, what can fault is the data access. -/
theorem exec_eq_fault_of_unreserved {f : Fault} (hr : reservedOf s i = none) :
    exec i s = .fault f ↔ (accessOf s i).bind (accessFaultOf s) = some f := by
  cases ha : accessOf s i with
  | none =>
    obtain ⟨t, ht⟩ := exec_next_of_no_access ha hr
    simp [ht]
  | some acc =>
    obtain ⟨a, n, isStore⟩ := acc
    rw [Option.bind_some]
    cases isStore with
    | true =>
      obtain ⟨w, v, he⟩ := exec_eq_store ha rfl hr
      rw [he, State.store_eq_fault]
    | false =>
      obtain ⟨rd, ext, he⟩ := exec_eq_load ha rfl hr
      rw [he, State.load_eq_fault]

end

/-- Settles O44: a reserved operand comes first, and without one the fault is that of the data access. -/
theorem execFaultsExactly : Obligations.ExecFaultsExactly := by
  intro i s f
  unfold faultOf
  cases hr : reservedOf s i with
  | some v => simp [exec_of_reserved hr]
  | none => exact exec_eq_fault_of_unreserved hr

/-! ### The alignment of `pc` (R14, R59, R164) -/

/-- Sign extension to 32 bits adds a multiple of 4. -/
theorem immB_toNat_mod_four (imm : BitVec 13) : (immB imm).toNat % 4 = imm.toNat % 4 := by
  rw [immB, BitVec.toNat_signExtend, BitVec.toNat_setWidth]
  split <;> omega

/-- Settles O47: 4 keeps `pc` a multiple of 4, and so does an offset, which is even, unless it is 2 modulo 4. -/
theorem onlyBranchesMisalignPc : Obligations.OnlyBranchesMisalignPc := by
  intro s t hs h
  obtain ⟨i, hfetch, hw, hexec⟩ := step_eq_next h
  rcases exec_pc hexec with ht | ⟨rs1, rs2, imm, rfl, hc, ht⟩
  · left
    rw [ht, BitVec.toNat_add, BitVec.toNat_ofNat]
    omega
  · have heven : imm.toNat % 2 = 0 := by simpa [Instr.wellFormed, BitVec.getLsbD] using hw
    by_cases h2 : imm.toNat % 4 = 2
    · exact .inr ⟨rs1, rs2, imm, hfetch, hc, h2⟩
    · left
      have himm := immB_toNat_mod_four imm
      rw [ht, BitVec.toNat_add]
      omega

end Sys2Proof.Machine

/-! PROOFS of the statement on reset (spec 70_reset_and_hazards.md): what the configuration fixes of the state after
reset. -/

namespace Sys2Proof.Machine

/-- Reset makes one entry for each tag of PSRF_TAG_INIT, in that order (R16, R24). -/
theorem State.resetWith_tags (c : Config) : (State.resetWith c).psrf.map PsrfEntry.tag = c.psrfTagInit := by
  simp [State.resetWith, Function.comp_def]

theorem State.resetWith_psrf_length (c : Config) : (State.resetWith c).psrf.length = c.nps :=
  List.length_map _

theorem State.resetWith_corf_length (c : Config) : (State.resetWith c).corf.length = c.nco :=
  List.length_replicate

/-- Settles O56: RESET_PC and the configuration are stored as given, `x[0]` reads 0 in every state, and the two special
files take their tags and lengths from the configuration. -/
theorem resetState : Obligations.ResetState := fun c =>
  ⟨rfl, State.reg_zero _, State.resetWith_tags c, State.resetWith_psrf_length c, State.resetWith_corf_length c, rfl⟩

end Sys2Proof.Machine
